-- ==== Sys2Proof/Word.lean ====
section
/-! DEFINITION. The word types of the hardware (00_scope.md R8, R11, R12). Every value is unsigned. -/

namespace Sys2Proof

/-- 8 bits: a register V0-VF, a byte of memory, a timer (R8, R11). -/
abbrev Byte := BitVec 8

/-- 16 bits: an instruction word, pc, I, a stack entry (R8). -/
abbrev Word := BitVec 16

/-- 4 bits: a register index x or y, the nibble n, a key number (R11, R72). -/
abbrev Nibble := BitVec 4

/-- 12 bits: the address field nnn (R72). -/
abbrev Addr := BitVec 12

/-- `zext_16` of R12: widen with zeros. -/
abbrev zext16 {n : Nat} (v : BitVec n) : Word := v.setWidth 16

end Sys2Proof
end

