-- ==== Sys2Proof/Syntax.lean ====
section
/-! DEFINITION. The instructions: one constructor for each of the 38 rows of spec/opcode_table.json, in the table's order (30_encoding.md R75). -/

namespace Sys2Proof

/-- An instruction with the operand fields its row names (R72, R75). `x` and `y` are register indexes, `kk` the byte,
`nnn` the address, `n` the nibble. Bits a row ignores (R81) are not kept. A null-handler row (R82, R107) keeps the low
twelve bits of its word as `rest`, so that the word can be written back; no meaning reads them. -/
inductive Instr where
  | cls                                    -- CLS                R190
  | ret                                    -- RET                R120
  | jpAddr (nnn : Addr)                    -- JP addr            R121
  | callAddr (nnn : Addr)                  -- CALL addr          R122
  | seVxByte (x : Nibble) (kk : Byte)      -- SE Vx,byte         R125
  | sneVxByte (x : Nibble) (kk : Byte)     -- SNE Vx,byte        R126
  | seVxVy (x y : Nibble)                  -- SE Vx,Vy           R127
  | ldVxByte (x : Nibble) (kk : Byte)      -- LD Vx,byte         R140
  | addVxByte (x : Nibble) (kk : Byte)     -- ADD Vx,byte        R141
  | ldVxVy (x y : Nibble)                  -- LD Vx,Vy           R142
  | orVxVy (x y : Nibble)                  -- OR Vx,Vy           R143
  | andVxVy (x y : Nibble)                 -- AND Vx,Vy          R144
  | xorVxVy (x y : Nibble)                 -- XOR Vx,Vy          R145
  | addVxVy (x y : Nibble)                 -- ADD Vx,Vy          R147
  | subVxVy (x y : Nibble)                 -- SUB Vx,Vy          R149
  | shrVx (x : Nibble)                     -- SHR Vx             R151
  | subnVxVy (x y : Nibble)                -- SUBN Vx,Vy         R153
  | shlVx (x : Nibble)                     -- SHL Vx             R155
  | sneVxVy (x y : Nibble)                 -- SNE Vx,Vy          R128
  | ldIAddr (nnn : Addr)                   -- LD I,addr          R170
  | jpV0Addr (nnn : Addr)                  -- JP V0,addr         R133
  | rndVxByte (x : Nibble) (kk : Byte)     -- RND Vx,byte        R163
  | drwVxVyN (x y n : Nibble)              -- DRW Vx,Vy,n        R192
  | skpVx (x : Nibble)                     -- SKP Vx             R210
  | sknpVx (x : Nibble)                    -- SKNP Vx            R211
  | ldVxDt (x : Nibble)                    -- LD Vx,DT           R214
  | ldVxK (x : Nibble)                     -- LD Vx,K            R215
  | ldDtVx (x : Nibble)                    -- LD DT,Vx           R217
  | ldStVx (x : Nibble)                    -- LD ST,Vx           R218
  | addIVx (x : Nibble)                    -- ADD I,Vx           R171
  | ldFVx (x : Nibble)                     -- LD F,Vx            R172
  | ldBVx (x : Nibble)                     -- LD B,Vx            R174
  | ldMemVx (x : Nibble)                   -- LD [I],Vx          R176
  | ldVxMem (x : Nibble)                   -- LD Vx,[I]          R178
  | nop0 (rest : BitVec 12)                -- null handler, p = 0x0   R107
  | nop8 (rest : BitVec 12)                -- null handler, p = 0x8   R107
  | nopE (rest : BitVec 12)                -- null handler, p = 0xE   R107
  | nopF (rest : BitVec 12)                -- null handler, p = 0xF   R107
  deriving DecidableEq, Repr

end Sys2Proof
end

