-- ==== Sys2Proof/WellFormed.lean ====
section
/-! DEFINITION. Which instruction terms stand for words. The operand fields are bit vectors of the width the encoding gives
them (R72, R73), so any value of theirs is a legal operand; what is left to check is that a null-handler term holds an
UNMATCHED selector (30_encoding.md R82). -/

namespace Sys2Proof

/-- Secondary selector s4 = w[3:0] of the low twelve bits (R71). -/
abbrev lowNibble (rest : BitVec 12) : Nibble := rest.extractLsb' 0 4

/-- Secondary selector s8 = w[7:0] of the low twelve bits (R71). -/
abbrev lowByte (rest : BitVec 12) : Byte := rest.extractLsb' 0 8

/-- p = 0x0: every s4 but 0x0 and 0xE is unmatched (R77, R82). -/
def unmatched0 (s4 : Nibble) : Bool := !([0x0, 0xE] : List Nibble).contains s4

/-- p = 0x8: 0x8-0xD and 0xF are unmatched (R78, R82). -/
def unmatched8 (s4 : Nibble) : Bool := ([0x8, 0x9, 0xA, 0xB, 0xC, 0xD, 0xF] : List Nibble).contains s4

/-- p = 0xE: every s4 but 0x1 and 0xE is unmatched (R79, R82). -/
def unmatchedE (s4 : Nibble) : Bool := !([0x1, 0xE] : List Nibble).contains s4

/-- p = 0xF: every s8 but the nine of R80 is unmatched (R82). -/
def unmatchedF (s8 : Byte) : Bool :=
  !([0x07, 0x0A, 0x15, 0x18, 0x1E, 0x29, 0x33, 0x55, 0x65] : List Byte).contains s8

/-- The term stands for some instruction word. -/
def Instr.wellFormed : Instr → Bool
  | .nop0 rest => unmatched0 (lowNibble rest)
  | .nop8 rest => unmatched8 (lowNibble rest)
  | .nopE rest => unmatchedE (lowNibble rest)
  | .nopF rest => unmatchedF (lowByte rest)
  | .cls | .ret => true
  | .jpAddr _ | .callAddr _ | .ldIAddr _ | .jpV0Addr _ => true
  | .seVxByte _ _ | .sneVxByte _ _ | .ldVxByte _ _ | .addVxByte _ _ | .rndVxByte _ _ => true
  | .seVxVy _ _ | .sneVxVy _ _ | .ldVxVy _ _ | .orVxVy _ _ | .andVxVy _ _ | .xorVxVy _ _ => true
  | .addVxVy _ _ | .subVxVy _ _ | .subnVxVy _ _ | .shrVx _ | .shlVx _ | .drwVxVyN _ _ _ => true
  | .skpVx _ | .sknpVx _ | .ldVxDt _ | .ldVxK _ | .ldDtVx _ | .ldStVx _ => true
  | .addIVx _ | .ldFVx _ | .ldBVx _ | .ldMemVx _ | .ldVxMem _ => true

/-- The term stands for some instruction word. -/
abbrev Instr.WellFormed (i : Instr) : Prop := i.wellFormed = true

end Sys2Proof
end

