-- ==== Sys2Proof/Decode.lean ====
section
/-! DEFINITION. The decoder (30_encoding.md R70-R84, 40_cycle.md R103) and, after it, the encoder. Decoding a WORD is total and
refuses nothing (R83, R84); decoding BYTES refuses, by name, only a list too short to hold a word. -/

namespace Sys2Proof

/-- Primary selector p = w[15:12] (R72). -/
def primary (w : Word) : Nibble := w.extractLsb' 12 4

/-- x = w[11:8] (R72). -/
def fieldX (w : Word) : Nibble := w.extractLsb' 8 4

/-- y = w[7:4] (R72). -/
def fieldY (w : Word) : Nibble := w.extractLsb' 4 4

/-- n = s4 = w[3:0] (R72). -/
def fieldN (w : Word) : Nibble := w.extractLsb' 0 4

/-- kk = s8 = w[7:0] (R72). -/
def fieldKK (w : Word) : Byte := w.extractLsb' 0 8

/-- nnn = w[11:0] (R72). -/
def fieldNNN (w : Word) : Addr := w.extractLsb' 0 12

/-- Secondary table of p = 0x0, by s4 alone (R77). -/
def decode0 (w : Word) : Instr :=
  if fieldN w = 0x0 then .cls
  else if fieldN w = 0xE then .ret
  else .nop0 (fieldNNN w)

/-- Secondary table of p = 0x8, by s4 (R78). -/
def decode8 (w : Word) : Instr :=
  if fieldN w = 0x0 then .ldVxVy (fieldX w) (fieldY w)
  else if fieldN w = 0x1 then .orVxVy (fieldX w) (fieldY w)
  else if fieldN w = 0x2 then .andVxVy (fieldX w) (fieldY w)
  else if fieldN w = 0x3 then .xorVxVy (fieldX w) (fieldY w)
  else if fieldN w = 0x4 then .addVxVy (fieldX w) (fieldY w)
  else if fieldN w = 0x5 then .subVxVy (fieldX w) (fieldY w)
  else if fieldN w = 0x6 then .shrVx (fieldX w)
  else if fieldN w = 0x7 then .subnVxVy (fieldX w) (fieldY w)
  else if fieldN w = 0xE then .shlVx (fieldX w)
  else .nop8 (fieldNNN w)

/-- Secondary table of p = 0xE, by s4 alone (R79). -/
def decodeE (w : Word) : Instr :=
  if fieldN w = 0xE then .skpVx (fieldX w)
  else if fieldN w = 0x1 then .sknpVx (fieldX w)
  else .nopE (fieldNNN w)

/-- Secondary table of p = 0xF, by s8 (R80). -/
def decodeF (w : Word) : Instr :=
  if fieldKK w = 0x07 then .ldVxDt (fieldX w)
  else if fieldKK w = 0x0A then .ldVxK (fieldX w)
  else if fieldKK w = 0x15 then .ldDtVx (fieldX w)
  else if fieldKK w = 0x18 then .ldStVx (fieldX w)
  else if fieldKK w = 0x1E then .addIVx (fieldX w)
  else if fieldKK w = 0x29 then .ldFVx (fieldX w)
  else if fieldKK w = 0x33 then .ldBVx (fieldX w)
  else if fieldKK w = 0x55 then .ldMemVx (fieldX w)
  else if fieldKK w = 0x65 then .ldVxMem (fieldX w)
  else .nopF (fieldNNN w)

/-- The decoder: the primary selects a direct handler or a secondary table (R74, R103). Total (R84). The selector values
are the conventional ones (R75, log entry 8). -/
def decodeWord (w : Word) : Instr :=
  match primary w with
  | 0x0 => decode0 w
  | 0x1 => .jpAddr (fieldNNN w)
  | 0x2 => .callAddr (fieldNNN w)
  | 0x3 => .seVxByte (fieldX w) (fieldKK w)
  | 0x4 => .sneVxByte (fieldX w) (fieldKK w)
  | 0x5 => .seVxVy (fieldX w) (fieldY w)
  | 0x6 => .ldVxByte (fieldX w) (fieldKK w)
  | 0x7 => .addVxByte (fieldX w) (fieldKK w)
  | 0x8 => decode8 w
  | 0x9 => .sneVxVy (fieldX w) (fieldY w)
  | 0xA => .ldIAddr (fieldNNN w)
  | 0xB => .jpV0Addr (fieldNNN w)
  | 0xC => .rndVxByte (fieldX w) (fieldKK w)
  | 0xD => .drwVxVyN (fieldX w) (fieldY w) (fieldN w)
  | 0xE => decodeE w
  | _ => decodeF w          -- 0xF, the one value left

/-- Why a byte list holds no instruction: it is shorter than one word (R70). No word is refused (R83). -/
inductive DecodeError where
  | truncated (got : Nat)
  deriving DecidableEq, Repr

/-- Two bytes as a word, high byte first (R51, R70). -/
def wordOfBytes (high low : Byte) : Word := high ++ low

/-- Read one instruction from the front of a byte list, and give back the rest. -/
def decodeBytes : List Byte → Except DecodeError (Instr × List Byte)
  | high :: low :: rest => .ok (decodeWord (wordOfBytes high low), rest)
  | short => .error (.truncated short.length)

/-- The high byte of a word, which lies at the lower address (R51). -/
def highByte (w : Word) : Byte := w.extractLsb' 8 8

/-- The low byte of a word, which lies at the higher address (R51). -/
def lowByteOf (w : Word) : Byte := w.extractLsb' 0 8

/-- The bytes of a word as memory holds them (R51). -/
def bytesOfWord (w : Word) : List Byte := [highByte w, lowByteOf w]

/-- The word a table row of `nbits` bits stands for: bits above `nbits` are zero, and a word has 16 bits (R70). -/
def tableWord (nbits w : Nat) : Word := BitVec.ofNat 16 (w % 2 ^ nbits)

/-- The instruction the decoder reads from a table row's bits, laid out high byte first. -/
def decodeTableWord (nbits w : Nat) : Option Instr :=
  match decodeBytes (bytesOfWord (tableWord nbits w)) with
  | .ok (i, _) => some i
  | .error _ => none

/-- Assemble p, x, y, n (R71). -/
def wordXYN (p x y n : Nibble) : Word := p ++ x ++ y ++ n

/-- Assemble p, x, kk (R71). -/
def wordXKK (p x : Nibble) (kk : Byte) : Word := p ++ x ++ kk

/-- Assemble p, nnn (R71). -/
def wordNNN (p : Nibble) (nnn : BitVec 12) : Word := p ++ nnn

/-- The word of an instruction, from the encoding column of R75. Ignored bits are written in the conventional spelling
(R92: 00E0, 00EE, 5xy0, 9xy0, Ex9E, ExA1, and y = 0 for SHR and SHL). -/
def encode : Instr → Word
  | .cls => 0x00E0
  | .ret => 0x00EE
  | .jpAddr nnn => wordNNN 0x1 nnn
  | .callAddr nnn => wordNNN 0x2 nnn
  | .seVxByte x kk => wordXKK 0x3 x kk
  | .sneVxByte x kk => wordXKK 0x4 x kk
  | .seVxVy x y => wordXYN 0x5 x y 0x0
  | .ldVxByte x kk => wordXKK 0x6 x kk
  | .addVxByte x kk => wordXKK 0x7 x kk
  | .ldVxVy x y => wordXYN 0x8 x y 0x0
  | .orVxVy x y => wordXYN 0x8 x y 0x1
  | .andVxVy x y => wordXYN 0x8 x y 0x2
  | .xorVxVy x y => wordXYN 0x8 x y 0x3
  | .addVxVy x y => wordXYN 0x8 x y 0x4
  | .subVxVy x y => wordXYN 0x8 x y 0x5
  | .shrVx x => wordXYN 0x8 x 0x0 0x6
  | .subnVxVy x y => wordXYN 0x8 x y 0x7
  | .shlVx x => wordXYN 0x8 x 0x0 0xE
  | .sneVxVy x y => wordXYN 0x9 x y 0x0
  | .ldIAddr nnn => wordNNN 0xA nnn
  | .jpV0Addr nnn => wordNNN 0xB nnn
  | .rndVxByte x kk => wordXKK 0xC x kk
  | .drwVxVyN x y n => wordXYN 0xD x y n
  | .skpVx x => wordXKK 0xE x 0x9E
  | .sknpVx x => wordXKK 0xE x 0xA1
  | .ldVxDt x => wordXKK 0xF x 0x07
  | .ldVxK x => wordXKK 0xF x 0x0A
  | .ldDtVx x => wordXKK 0xF x 0x15
  | .ldStVx x => wordXKK 0xF x 0x18
  | .addIVx x => wordXKK 0xF x 0x1E
  | .ldFVx x => wordXKK 0xF x 0x29
  | .ldBVx x => wordXKK 0xF x 0x33
  | .ldMemVx x => wordXKK 0xF x 0x55
  | .ldVxMem x => wordXKK 0xF x 0x65
  | .nop0 rest => wordNNN 0x0 rest
  | .nop8 rest => wordNNN 0x8 rest
  | .nopE rest => wordNNN 0xE rest
  | .nopF rest => wordNNN 0xF rest

/-- The bytes of an instruction as memory holds them (R51). -/
def encodeBytes (i : Instr) : List Byte := bytesOfWord (encode i)

/-- The "mask" column of spec/opcode_table.json: the bits that select the row (R75). -/
def Instr.tableMask : Instr → Word
  | .cls | .ret => 0xF00F
  | .ldVxVy _ _ | .orVxVy _ _ | .andVxVy _ _ | .xorVxVy _ _ | .addVxVy _ _ | .subVxVy _ _ => 0xF00F
  | .shrVx _ | .subnVxVy _ _ | .shlVx _ | .skpVx _ | .sknpVx _ => 0xF00F
  | .ldVxDt _ | .ldVxK _ | .ldDtVx _ | .ldStVx _ | .addIVx _ | .ldFVx _ | .ldBVx _ | .ldMemVx _ | .ldVxMem _ => 0xF0FF
  | .jpAddr _ | .callAddr _ | .seVxByte _ _ | .sneVxByte _ _ | .seVxVy _ _ | .ldVxByte _ _ | .addVxByte _ _ => 0xF000
  | .sneVxVy _ _ | .ldIAddr _ | .jpV0Addr _ | .rndVxByte _ _ | .drwVxVyN _ _ _ => 0xF000
  | .nop0 _ | .nop8 _ | .nopE _ | .nopF _ => 0xF000

/-- The "match" column of spec/opcode_table.json: what those bits are (R75). -/
def Instr.tableMatch : Instr → Word
  | .cls => 0x0000
  | .ret => 0x000E
  | .jpAddr _ => 0x1000
  | .callAddr _ => 0x2000
  | .seVxByte _ _ => 0x3000
  | .sneVxByte _ _ => 0x4000
  | .seVxVy _ _ => 0x5000
  | .ldVxByte _ _ => 0x6000
  | .addVxByte _ _ => 0x7000
  | .ldVxVy _ _ => 0x8000
  | .orVxVy _ _ => 0x8001
  | .andVxVy _ _ => 0x8002
  | .xorVxVy _ _ => 0x8003
  | .addVxVy _ _ => 0x8004
  | .subVxVy _ _ => 0x8005
  | .shrVx _ => 0x8006
  | .subnVxVy _ _ => 0x8007
  | .shlVx _ => 0x800E
  | .sneVxVy _ _ => 0x9000
  | .ldIAddr _ => 0xA000
  | .jpV0Addr _ => 0xB000
  | .rndVxByte _ _ => 0xC000
  | .drwVxVyN _ _ _ => 0xD000
  | .skpVx _ => 0xE00E
  | .sknpVx _ => 0xE001
  | .ldVxDt _ => 0xF007
  | .ldVxK _ => 0xF00A
  | .ldDtVx _ => 0xF015
  | .ldStVx _ => 0xF018
  | .addIVx _ => 0xF01E
  | .ldFVx _ => 0xF029
  | .ldBVx _ => 0xF033
  | .ldMemVx _ => 0xF055
  | .ldVxMem _ => 0xF065
  | .nop0 _ => 0x0000
  | .nop8 _ => 0x8000
  | .nopE _ => 0xE000
  | .nopF _ => 0xF000

/-- The bits of an instruction's word that its decoding drops (R81). -/
def Instr.ignoredBits : Instr → Word
  | .cls | .ret => 0x0FF0
  | .seVxVy _ _ | .sneVxVy _ _ => 0x000F
  | .shrVx _ | .shlVx _ | .skpVx _ | .sknpVx _ => 0x00F0
  | .jpAddr _ | .callAddr _ | .ldIAddr _ | .jpV0Addr _ => 0
  | .seVxByte _ _ | .sneVxByte _ _ | .ldVxByte _ _ | .addVxByte _ _ | .rndVxByte _ _ => 0
  | .ldVxVy _ _ | .orVxVy _ _ | .andVxVy _ _ | .xorVxVy _ _ | .addVxVy _ _ | .subVxVy _ _ | .subnVxVy _ _ => 0
  | .drwVxVyN _ _ _ => 0
  | .ldVxDt _ | .ldVxK _ | .ldDtVx _ | .ldStVx _ | .addIVx _ | .ldFVx _ | .ldBVx _ | .ldMemVx _ | .ldVxMem _ => 0
  | .nop0 _ | .nop8 _ | .nopE _ | .nopF _ => 0

end Sys2Proof
end

