-- ==== Sys2Proof/Config.lean ====
section
/-! DEFINITION. What is fixed for a machine and does not change as it runs: the three parameters the spec leaves to a model's
arguments (00_scope.md R10), and the free values (RND's byte, LD Vx,K's choice), which have no body. -/

namespace Sys2Proof

/-- `DRW_Y_WRAP`, the modulus of DRW's start row: 64 or 32 (R10, R194, 90_conflicts.md C4). -/
inductive YWrap where
  | rows64
  | rows32
  deriving DecidableEq, Repr

/-- The modulus itself. -/
def YWrap.toNat : YWrap → Nat
  | .rows64 => 64
  | .rows32 => 32

/-- `WAIT_KEY_LAST`, the last key that ends LD Vx,K: 0xE or 0xF (R10, R215, 90_conflicts.md C3). -/
inductive WaitKeyLast where
  | keyE
  | keyF
  deriving DecidableEq, Repr

/-- The key number itself. -/
def WaitKeyLast.toNat : WaitKeyLast → Nat
  | .keyE => 0xE
  | .keyF => 0xF

/-- The parameters of R10. `font` is the 80 bytes of `FONT` (R37), glyph 0 first. -/
structure Params where
  drwYWrap : YWrap
  waitKeyLast : WaitKeyLast
  font : Vector Byte 80
  deriving DecidableEq, Repr

/-- FREE VALUE: the byte `draw8()` gives to the `k`-th draw (42_alu.md R163, log entry 4). Nothing constrains it. -/
opaque Config.randomByte (k : Nat) : Byte

/-- FREE VALUE: which member LD Vx,K takes when several eligible keys are pressed (45_keys_timers.md R216, log entry 5).
It is reduced modulo the number of them, so that every member can be the one. -/
opaque Config.keyChoice (k : Nat) : Nat

end Sys2Proof
end

