-- ==== Sys2Proof/Machine/Layout.lean ====
section
/-! DEFINITION. The address map (20_memory.md R58), the contents memory has at reset (10_state.md R42), and the spec's default
for each parameter (00_scope.md R10, 10_state.md R37). -/

namespace Sys2Proof.Machine

/-- Number of bytes of memory: addresses 0x000-0xFFF (R8, R38). -/
def memSize : Nat := 0x1000

/-- `fontsetBase` (R9). -/
def fontBase : Nat := 0x050

/-- Where a ROM is loaded (R271). -/
def romBase : Nat := 0x200

/-- The largest ROM that fits (R272). -/
def maxRom : Nat := memSize - romBase

/-- What the byte at `a` holds after reset, and what an address that memory does not list reads as: the font in
0x050-0x09F, zero elsewhere (R42, R58). -/
def resetByte (font : Vector Byte 80) (a : Nat) : Byte :=
  if fontBase ≤ a then font.getD (a - fontBase) 0 else 0

/-- The spec's default `FONT`: the table of R37, one glyph of five rows a line. -/
def defaultFont : Vector Byte 80 := #v[
  0xF0, 0x90, 0x90, 0x90, 0xF0,   0x20, 0x60, 0x20, 0x20, 0x70,
  0xF0, 0x10, 0xF0, 0x80, 0xF0,   0xF0, 0x10, 0xF0, 0x10, 0xF0,
  0x90, 0x90, 0xF0, 0x10, 0x10,   0xF0, 0x80, 0xF0, 0x10, 0xF0,
  0xF0, 0x80, 0xF0, 0x90, 0xF0,   0xF0, 0x10, 0x20, 0x40, 0x40,
  0xF0, 0x90, 0xF0, 0x90, 0xF0,   0xF0, 0x90, 0xF0, 0x10, 0xF0,
  0xF0, 0x90, 0xF0, 0x90, 0x90,   0xE0, 0x90, 0xE0, 0x90, 0xE0,
  0xF0, 0x80, 0x80, 0x80, 0xF0,   0xE0, 0x90, 0x90, 0x90, 0xE0,
  0xF0, 0x80, 0xF0, 0x80, 0xF0,   0xF0, 0x80, 0xF0, 0x80, 0x80]

/-- The spec's value of each parameter (R10). -/
def defaultParams : Params :=
  { drwYWrap := .rows64, waitKeyLast := .keyE, font := defaultFont }

end Sys2Proof.Machine
end

