-- ==== Sys2Proof/Machine/Memory.lean ====
section
/-! DEFINITION. Memory: the listed bytes, in ONE canonical form, over the reset contents (20_memory.md R50, R55, R57). -/

namespace Sys2Proof.Machine

/-- The bytes that differ from the reset contents, by rising address. -/
abbrev Memory := List Host.Cell

/-- The byte at `a`: the listed one, else the reset contents. -/
def Memory.read (font : Vector Byte 80) : Memory → Nat → Byte
  | [], a => resetByte font a
  | (b, v) :: rest, a => if a = b then v else Memory.read font rest a

/-- List `v` at `a` in front of `rest`, unless an unlisted `a` reads as `v` already. -/
def Memory.cons (font : Vector Byte 80) (a : Nat) (v : Byte) (rest : Memory) : Memory :=
  if v = resetByte font a then rest else (a, v) :: rest

/-- Write `v` at `a`, keeping the canonical form. -/
def Memory.write (font : Vector Byte 80) : Memory → Nat → Byte → Memory
  | [], a, v => Memory.cons font a v []
  | (b, u) :: rest, a, v =>
    if a < b then Memory.cons font a v ((b, u) :: rest)
    else if a = b then Memory.cons font a v rest
    else (b, u) :: Memory.write font rest a v

/-- Canonical from address `lo` on: addresses rise strictly, each is an address of the memory, and no entry equals
what an unlisted address reads as. -/
def Memory.wfFrom (font : Vector Byte 80) : Nat → Memory → Bool
  | _, [] => true
  | lo, (a, v) :: rest =>
    decide (lo ≤ a) && decide (a < memSize) && decide (v ≠ resetByte font a) && Memory.wfFrom font (a + 1) rest

/-- The canonical form. -/
def Memory.wf (font : Vector Byte 80) (m : Memory) : Bool := Memory.wfFrom font 0 m

end Sys2Proof.Machine
end

