-- ==== Sys2Proof/Machine/State.lean ====
section
/-! DEFINITION. The architectural state (10_state.md R20), its value after reset (R42), and the reasons a step can stop. -/

namespace Sys2Proof.Machine

/-- The six fault codes (60_exceptions.md R231), in the order of their numbers 1 to 6. -/
inductive FaultCode where
  | fetchOutOfRange     -- pc > 0xFFE at fetch
  | memOutOfRange       -- a data access at I + k > 0xFFF
  | stackOverflow       -- CALL with sp = 16
  | stackUnderflow      -- RET with sp = 0
  | fbOutOfRange        -- a set sprite bit targets cell > 2047
  | keyOutOfRange       -- SKP or SKNP with V[x] > 0x0F
  deriving DecidableEq, Repr

/-- The code's number (R231). -/
def FaultCode.number : FaultCode → Nat
  | .fetchOutOfRange => 1
  | .memOutOfRange => 2
  | .stackOverflow => 3
  | .stackUnderflow => 4
  | .fbOutOfRange => 5
  | .keyOutOfRange => 6

/-- `status` (R41): running, or faulted with the code and the address of the instruction that faulted. -/
inductive Status where
  | running
  | faulted (code : FaultCode) (addr : Word)
  deriving DecidableEq, Repr

/-- Why a step has no next state. -/
inductive Fault where
  /-- Raised by `step` on a state whose status is Faulted: the core takes no further step (R106). Safe: the machine
  stops where the spec says it has no step. -/
  | coreFaulted (code : FaultCode) (addr : Word)
  deriving DecidableEq, Repr

/-- What the model declines to do. -/
inductive Refusal where
  /-- An instruction that has no meaning yet. Raised only by an arm of `exec`. Safe: nothing is claimed of it. -/
  | notModelled (mnemonic : String)
  /-- Raised by the transaction LOAD_ROM on any state but the reset state, and after a first load or a cycle whatever the
  state (70_reset_and_hazards.md R271, 60_exceptions.md R257). Safe: the spec gives no rule for it and says that a model
  refuses it. -/
  | loadRomNotAtReset
  /-- Raised by the transaction LOAD_ROM for more than 3584 bytes (R272). Safe: the spec refuses it. -/
  | romTooLarge
  deriving DecidableEq, Repr

/-- The record of R20, and three fields of the model's own: `params`, the parameters a model takes as arguments (R10),
which nothing changes, `draws`, the count of free values taken, and `loadOpen`, where the host is in the boot order. -/
structure State where
  /-- The bytes of memory that differ from the reset contents (R38, R50). -/
  mem : Memory
  /-- V0-VF (R22). -/
  V : Vector Byte 16
  /-- The index register (R29). -/
  I : Word
  /-- The program counter (R26). -/
  pc : Word
  /-- The return addresses (R30). -/
  stack : Vector Word 16
  /-- How many entries of `stack` are in use, 0 to 16 (R31). -/
  sp : Fin 17
  /-- The delay timer (R32). -/
  DT : Byte
  /-- The sound timer (R33). -/
  ST : Byte
  /-- The keypad, true meaning pressed (R35). -/
  key : Vector Bool 16
  /-- The framebuffer (R36): bit `r * 64 + c` is the pixel at row `r`, column `c`, on or off. -/
  fb : BitVec 2048
  /-- The word last fetched (R34). -/
  opcode : Word
  /-- Running or faulted (R41). -/
  status : Status
  /-- The model's own: the parameters of R10. -/
  params : Params
  /-- The model's own: how many free values have been taken. -/
  draws : Nat
  /-- The model's own: the host has run neither LOAD_ROM nor CYCLE since reset, so that its one load may still come
  (60_exceptions.md R257, 70_reset_and_hazards.md R274). No instruction and no cycle reads it. -/
  loadOpen : Bool
  deriving DecidableEq, Repr

/-- The reset state of a machine with parameters `p` (R42). -/
def State.resetWith (p : Params) : State :=
  { mem := []
    V := Vector.replicate 16 0x00
    I := 0x0000
    pc := 0x0200
    stack := Vector.replicate 16 0x0000
    sp := 0
    DT := 0x00
    ST := 0x00
    key := Vector.replicate 16 false
    fb := 0
    opcode := 0x0000
    status := .running
    params := p
    draws := 0
    loadOpen := true }

/-- The machine right after reset, with the spec's default parameters (R10, R42). -/
def State.reset : State := State.resetWith defaultParams

end Sys2Proof.Machine
end

