-- ==== Sys2Proof/Machine/Ops.lean ====
section
/-! DEFINITION. The named operations every meaning is written with: registers, memory, pc, stack, framebuffer cells, the fetch,
and raising a fault. -/

namespace Sys2Proof.Machine

/-! ### Registers (R13, R22) -/

/-- `V[r]`. -/
def State.v (s : State) (r : Nibble) : Byte := s.V[r.toNat]

/-- `V[r] <- b`. -/
def State.setV (s : State) (r : Nibble) (b : Byte) : State := { s with V := s.V.set r.toNat b }

/-- `VF <- b`: VF is V[0xF] (R13, R25). -/
def State.setVF (s : State) (b : Byte) : State := s.setV 0xF b

/-- `I <- w`. -/
def State.setI (s : State) (w : Word) : State := { s with I := w }

/-- `DT <- b`. -/
def State.setDT (s : State) (b : Byte) : State := { s with DT := b }

/-- `ST <- b`. -/
def State.setST (s : State) (b : Byte) : State := { s with ST := b }

/-! ### Program counter (R26, R28: modulo 2^16) -/

/-- The cycle's own advance, before the handler (40_cycle.md R102). -/
def State.advance (s : State) : State := { s with pc := s.pc + 2 }

/-- `pc <- w`. -/
def State.jump (s : State) (w : Word) : State := { s with pc := w }

/-- Skip the next instruction if `c` holds (41_control_flow.md R124). -/
def State.skipIf (s : State) (c : Bool) : State := if c then { s with pc := s.pc + 2 } else s

/-- `pc <- pc - 2`: fetch this instruction again (45_keys_timers.md R215). -/
def State.rewind (s : State) : State := { s with pc := s.pc - 2 }

/-! ### Memory (20_memory.md R55, R56) -/

/-- The byte at `a`. -/
def State.peek (s : State) (a : Nat) : Byte := Memory.read s.params.font s.mem a

/-- The byte at `a` becomes `b`. -/
def State.poke (s : State) (a : Nat) (b : Byte) : State :=
  { s with mem := Memory.write s.params.font s.mem a b }

/-- The bytes at `a`, `a + 1`, ... become those of the list, in ascending order. -/
def State.pokes (s : State) (a : Nat) : List Byte → State
  | [] => s
  | b :: bs => (s.poke a b).pokes (a + 1) bs

/-- The `n` bytes from `a` on. -/
def State.peeks (s : State) (a : Nat) : Nat → List Byte
  | 0 => []
  | n + 1 => s.peek a :: s.peeks (a + 1) n

/-- The `n` addresses from `a` on all lie in 0x000-0xFFF. -/
def inMemory (a n : Nat) : Bool := decide (n = 0 ∨ a + n ≤ memSize)

/-- `MemRead` of the `n` bytes from `a` on, or MEM_OUT_OF_RANGE if an address is above 0xFFF (R55). -/
def State.memRead (s : State) (a n : Nat) : Except FaultCode (List Byte) :=
  if inMemory a n then .ok (s.peeks a n) else .error .memOutOfRange

/-- `MemWrite` of the bytes from `a` on; every address is checked before anything is written (R55). -/
def State.memWrite (s : State) (a : Nat) (bs : List Byte) : Except FaultCode State :=
  if inMemory a bs.length then .ok (s.pokes a bs) else .error .memOutOfRange

/-! ### Stack (10_state.md R30, R31) -/

/-- CALL's push of the (already advanced) pc and jump to `target`; STACK_OVERFLOW when sp = 16 (R122). -/
def State.call (s : State) (target : Word) : Except FaultCode State :=
  if h : s.sp.val < 16 then
    .ok { s with stack := s.stack.set s.sp.val s.pc, sp := ⟨s.sp.val + 1, by omega⟩, pc := target }
  else .error .stackOverflow

/-- RET's pop into pc; STACK_UNDERFLOW when sp = 0; the entry read is not cleared (R120). -/
def State.ret (s : State) : Except FaultCode State :=
  if h : s.sp.val = 0 then .error .stackUnderflow
  else .ok { s with sp := ⟨s.sp.val - 1, by omega⟩, pc := s.stack[s.sp.val - 1] }

/-! ### Framebuffer and keypad (10_state.md R35, R36) -/

/-- Cell `c` is on. -/
def State.cell (s : State) (c : Nat) : Bool := s.fb.getLsbD c

/-- Cell `c` is flipped. -/
def State.flipCell (s : State) (c : Nat) : State := { s with fb := s.fb ^^^ BitVec.twoPow 2048 c }

/-- Every cell is off. -/
def State.clearFb (s : State) : State := { s with fb := 0 }

/-- Key `k` is pressed. -/
def State.pressed (s : State) (k : Nat) : Bool := s.key.getD k false

/-! ### Free values -/

/-- One free value has been taken. -/
def State.drawn (s : State) : State := { s with draws := s.draws + 1 }

/-! ### Faults (60_exceptions.md R232, 40_cycle.md R108) -/

/-- `raise Fault(c)` on the state `s` at the start of the cycle: nothing of `s` changes but `status`, which records the code
and the address of the instruction. There is no trap entry beyond this and no return from it (R233, R236). -/
def State.raiseFault (s : State) (c : FaultCode) : State := { s with status := .faulted c s.pc }

/-- End a handler that began on `s`: its result is the next state, or it raised a fault and every write of the cycle is
discarded. -/
def settle (s : State) : Except FaultCode State → Host.Outcome State Fault Refusal
  | .ok t => .next t
  | .error c => .next (s.raiseFault c)

/-! ### Fetch (40_cycle.md R100, R101) -/

/-- The word at `a`, high byte at the lower address (R51). -/
def State.wordAt (s : State) (a : Nat) : Word := wordOfBytes (s.peek a) (s.peek (a + 1))

/-- Read the instruction word at pc, or FETCH_OUT_OF_RANGE if pc > 0xFFE. -/
def State.fetch (s : State) : Except FaultCode Word :=
  if s.pc.toNat > 0xFFE then .error .fetchOutOfRange else .ok (s.wordAt s.pc.toNat)

/-- `opcode <- w`, the fetch's own write, which a faulting cycle discards (R100, R108). No handler reads `opcode`, its fields
having been decoded, so the model writes it when the handler has ended (log entry 2). -/
def commitOpcode (w : Word) : Host.Outcome State Fault Refusal → Host.Outcome State Fault Refusal
  | .next t =>
    match t.status with
    | .running => .next { t with opcode := w }
    | .faulted _ _ => .next t
  | .fault r => .fault r
  | .refused r => .refused r

end Sys2Proof.Machine
end

