-- ==== Sys2Proof/Machine/Flags.lean ====
section
/-! DEFINITION. Every flag computation: what an instruction leaves in VF (10_state.md R25). VF is a byte, 1 or 0. -/

namespace Sys2Proof.Machine

/-- A condition as VF holds it. -/
def flagByte (c : Bool) : Byte := if c then 1 else 0

/-- ADD Vx,Vy: the 9-bit sum exceeds 255 (42_alu.md R147). -/
def carryFlag (a b : Byte) : Byte := flagByte (decide (a.toNat + b.toNat > 255))

/-- SUB and SUBN: strictly greater, not "no borrow" (R149, R153). -/
def greaterFlag (a b : Byte) : Byte := flagByte (decide (a.toNat > b.toNat))

/-- SHR: the bit shifted out, bit 0 (R151). -/
def shrFlag (a : Byte) : Byte := a &&& 0x01

/-- SHL: the bit shifted out, bit 7 (R155). -/
def shlFlag (a : Byte) : Byte := (a &&& 0x80) >>> 7

/-- DRW: an on cell is met by a set sprite bit (44_display.md R192): VF becomes 1, else it stays. -/
def State.collideIf (s : State) (c : Bool) : State := if c then s.setVF 1 else s

end Sys2Proof.Machine
end

