-- ==== Sys2Proof/Machine/Alu.lean ====
section
/-! DEFINITION. Register loads, arithmetic, logic and RND (42_alu.md). Statements run in the order written and a read sees
every earlier write of the same instruction (00_scope.md R14), which shows only when x or y is 0xF. -/

namespace Sys2Proof.Machine

/-- LD Vx,byte (R140). -/
def execLdVxByte (x : Nibble) (kk : Byte) (s : State) : Host.Outcome State Fault Refusal :=
  .next (s.advance.setV x kk)

/-- ADD Vx,byte: modulo 256, no flag (R141). -/
def execAddVxByte (x : Nibble) (kk : Byte) (s : State) : Host.Outcome State Fault Refusal :=
  .next (s.advance.setV x (s.v x + kk))

/-- LD Vx,Vy (R142). -/
def execLdVxVy (x y : Nibble) (s : State) : Host.Outcome State Fault Refusal :=
  .next (s.advance.setV x (s.v y))

/-- OR Vx,Vy: VF is not a flag here (R143, R146). -/
def execOrVxVy (x y : Nibble) (s : State) : Host.Outcome State Fault Refusal :=
  .next (s.advance.setV x (s.v x ||| s.v y))

/-- AND Vx,Vy (R144, R146). -/
def execAndVxVy (x y : Nibble) (s : State) : Host.Outcome State Fault Refusal :=
  .next (s.advance.setV x (s.v x &&& s.v y))

/-- XOR Vx,Vy (R145, R146). -/
def execXorVxVy (x y : Nibble) (s : State) : Host.Outcome State Fault Refusal :=
  .next (s.advance.setV x (s.v x ^^^ s.v y))

/-- `VF <- flag`, and then `V[x] <- f` of the registers as they now stand: the order of R149 to R155. -/
def State.flagThen (s : State) (flag : Byte) (x : Nibble) (f : State → Byte) : State :=
  (s.setVF flag).setV x (f (s.setVF flag))

/-- ADD Vx,Vy: the sum is computed before VF is written (R147, R148). -/
def execAddVxVy (x y : Nibble) (s : State) : Host.Outcome State Fault Refusal :=
  .next (s.advance.flagThen (carryFlag (s.v x) (s.v y)) x fun _ => s.v x + s.v y)

/-- SUB Vx,Vy: the difference reads V[x] and V[y] after the VF write (R149, R150). -/
def execSubVxVy (x y : Nibble) (s : State) : Host.Outcome State Fault Refusal :=
  .next (s.advance.flagThen (greaterFlag (s.v x) (s.v y)) x fun t => t.v x - t.v y)

/-- SHR Vx: the shift reads V[x] after the VF write (R151, R152). -/
def execShrVx (x : Nibble) (s : State) : Host.Outcome State Fault Refusal :=
  .next (s.advance.flagThen (shrFlag (s.v x)) x fun t => t.v x >>> 1)

/-- SUBN Vx,Vy: the difference reads V[x] and V[y] after the VF write (R153, R154). -/
def execSubnVxVy (x y : Nibble) (s : State) : Host.Outcome State Fault Refusal :=
  .next (s.advance.flagThen (greaterFlag (s.v y) (s.v x)) x fun t => t.v y - t.v x)

/-- SHL Vx: the shift reads V[x] after the VF write (R155, R156). -/
def execShlVx (x : Nibble) (s : State) : Host.Outcome State Fault Refusal :=
  .next (s.advance.flagThen (shlFlag (s.v x)) x fun t => t.v x <<< 1)

/-- RND Vx,byte with the draw `r` (R163). -/
def State.rnd (s : State) (r : Byte) (x : Nibble) (kk : Byte) : State := s.setV x (r &&& kk)

/-- RND Vx,byte: the draw is a free value (R163). -/
def execRndVxByte (x : Nibble) (kk : Byte) (s : State) : Host.Outcome State Fault Refusal :=
  .next (s.advance.rnd (Config.randomByte s.draws) x kk).drawn

end Sys2Proof.Machine
end

