-- ==== Sys2Proof/Machine/ControlFlow.lean ====
section
/-! DEFINITION. Jumps, calls, returns and skips (41_control_flow.md). Each meaning takes the state at the start of the cycle and
begins with the cycle's advance (R102), so that its handler sees pc = a + 2, as the rules do. -/

namespace Sys2Proof.Machine

/-- RET (R120). -/
def execRet (s : State) : Host.Outcome State Fault Refusal :=
  settle s s.advance.ret

/-- JP addr (R121). -/
def execJpAddr (nnn : Addr) (s : State) : Host.Outcome State Fault Refusal :=
  .next (s.advance.jump (zext16 nnn))

/-- CALL addr (R122). -/
def execCallAddr (nnn : Addr) (s : State) : Host.Outcome State Fault Refusal :=
  settle s (s.advance.call (zext16 nnn))

/-- SE Vx,byte (R125). -/
def execSeVxByte (x : Nibble) (kk : Byte) (s : State) : Host.Outcome State Fault Refusal :=
  .next (s.advance.skipIf (s.v x == kk))

/-- SNE Vx,byte (R126). -/
def execSneVxByte (x : Nibble) (kk : Byte) (s : State) : Host.Outcome State Fault Refusal :=
  .next (s.advance.skipIf (s.v x != kk))

/-- SE Vx,Vy (R127). -/
def execSeVxVy (x y : Nibble) (s : State) : Host.Outcome State Fault Refusal :=
  .next (s.advance.skipIf (s.v x == s.v y))

/-- SNE Vx,Vy (R128). -/
def execSneVxVy (x y : Nibble) (s : State) : Host.Outcome State Fault Refusal :=
  .next (s.advance.skipIf (s.v x != s.v y))

/-- JP V0,addr (R133). -/
def execJpV0Addr (nnn : Addr) (s : State) : Host.Outcome State Fault Refusal :=
  .next (s.advance.jump (zext16 nnn + zext16 (s.v 0x0)))

end Sys2Proof.Machine
end

