-- ==== Sys2Proof/Machine/Operands.lean ====
section
/-! DEFINITION. The operand forms: the one addressing mode, register blocks, decimal digits, sprite cells, eligible keys. -/

namespace Sys2Proof.Machine

/-- The effective address of byte `k` of a data access: `I + k` as an integer, not reduced (20_memory.md R56). -/
def State.ea (s : State) (k : Nat) : Nat := s.I.toNat + k

/-- V0 to Vx, V0 first (43_index_memory.md R176, R179). -/
def State.regBlock (s : State) (x : Nibble) : List Byte := s.V.toList.take (x.toNat + 1)

/-- `V[k] <- b` for the bytes of the list, from register `k` upwards (R178, R179). -/
def State.loadRegs (s : State) (k : Nat) : List Byte → State
  | [] => s
  | b :: bs => (s.setV (BitVec.ofNat 4 k) b).loadRegs (k + 1) bs

/-- The three decimal digits of `v`: hundreds, tens, units (R174). -/
def bcdDigits (v : Byte) : List Byte :=
  [BitVec.ofNat 8 (v.toNat / 100), BitVec.ofNat 8 (v.toNat / 10 % 10), BitVec.ofNat 8 (v.toNat % 10)]

/-- The address of the glyph of `v`: `0x050 + 5 * v`, with no mask of `v` (R172, R173). -/
def fontAddress (v : Byte) : Word := BitVec.ofNat 16 (fontBase + 5 * v.toNat)

/-- DRW's start column: `V[x] mod 64` (44_display.md R194). -/
def startColumn (vx : Byte) : Nat := vx.toNat % 64

/-- DRW's start row: `V[y] mod DRW_Y_WRAP` (R194). -/
def startRow (wrap : YWrap) (vy : Byte) : Nat := vy.toNat % wrap.toNat

/-- Column `col` of a sprite byte is on: bit `7 - col`, the most significant bit leftmost (R191). -/
def spriteBit (b : Byte) (col : Nat) : Bool := b.getLsbD (7 - col)

/-- The cells the set bits of one sprite byte target, left to right, by the single index formula (R192, R195). -/
def rowCells (xPos yPos : Nat) (b : Byte) : List Nat :=
  ((List.range 8).filter (spriteBit b)).map fun col => yPos * 64 + (xPos + col)

/-- The cells the set bits of a sprite target, row after row. -/
def spriteCells (xPos yPos : Nat) : List Byte → List Nat
  | [] => []
  | b :: bs => rowCells xPos yPos b ++ spriteCells xPos (yPos + 1) bs

/-- The eligible keys that are pressed, the set P of 45_keys_timers.md R215, in rising order. -/
def State.waitKeys (s : State) : List Nat :=
  (List.range (s.params.waitKeyLast.toNat + 1)).filter s.pressed

/-- `choose(P)` for P the list `k :: ks`: the member that the free value `c` picks (R216). With one member there is no
choice. -/
def chooseKey (c : Nat) (k : Nat) : List Nat → Nat
  | [] => k
  | ks => (k :: ks).getD (c % (ks.length + 1)) k

end Sys2Proof.Machine
end

