-- ==== Sys2Proof/Machine/Display.lean ====
section
/-! DEFINITION. CLS and DRW (44_display.md). -/

namespace Sys2Proof.Machine

/-- CLS (R190). -/
def execCls (s : State) : Host.Outcome State Fault Refusal :=
  .next s.advance.clearFb

/-- One set sprite bit on cell `c`: if the cell is on, VF becomes 1, and then the cell is flipped (R192). -/
def State.drawCell (s : State) (c : Nat) : State := (s.collideIf (s.cell c)).flipCell c

/-- The set sprite bits in order. -/
def State.drawCells (s : State) : List Nat → State
  | [] => s
  | c :: cs => (s.drawCell c).drawCells cs

/-- DRW's effect once the sprite is read: FB_OUT_OF_RANGE if a set bit targets a cell above 2047, checked before any write;
else VF is cleared and every set bit drawn (R192, R195). -/
def State.drawSprite (s : State) (xPos yPos : Nat) (rows : List Byte) : Except FaultCode State :=
  if (spriteCells xPos yPos rows).all fun c => decide (c ≤ 2047) then
    .ok ((s.setVF 0).drawCells (spriteCells xPos yPos rows))
  else .error .fbOutOfRange

/-- DRW Vx,Vy,n: the position is read before VF is cleared (R193), and MEM_OUT_OF_RANGE of any row is reported before
FB_OUT_OF_RANGE of any bit (R192, R238). -/
def execDrwVxVyN (x y n : Nibble) (s : State) : Host.Outcome State Fault Refusal :=
  settle s ((s.memRead (s.ea 0) n.toNat).bind fun rows =>
    s.advance.drawSprite (startColumn (s.v x)) (startRow s.params.drwYWrap (s.v y)) rows)

end Sys2Proof.Machine
end

