-- ==== Sys2Proof/Machine/IndexMemory.lean ====
section
/-! DEFINITION. The index register and the memory loads and stores (43_index_memory.md). -/

namespace Sys2Proof.Machine

/-- LD I,addr (R170). -/
def execLdIAddr (nnn : Addr) (s : State) : Host.Outcome State Fault Refusal :=
  .next (s.advance.setI (zext16 nnn))

/-- ADD I,Vx: modulo 2^16, no flag (R171). -/
def execAddIVx (x : Nibble) (s : State) : Host.Outcome State Fault Refusal :=
  .next (s.advance.setI (s.I + zext16 (s.v x)))

/-- LD F,Vx (R172, R173). -/
def execLdFVx (x : Nibble) (s : State) : Host.Outcome State Fault Refusal :=
  .next (s.advance.setI (fontAddress (s.v x)))

/-- LD B,Vx (R174). -/
def execLdBVx (x : Nibble) (s : State) : Host.Outcome State Fault Refusal :=
  settle s (s.advance.memWrite (s.ea 0) (bcdDigits (s.v x)))

/-- LD [I],Vx: V0 to Vx at I to I + x; I is unchanged (R176). -/
def execLdMemVx (x : Nibble) (s : State) : Host.Outcome State Fault Refusal :=
  settle s (s.advance.memWrite (s.ea 0) (s.regBlock x))

/-- LD Vx,[I]: V0 to Vx from I to I + x; I is unchanged (R178). -/
def execLdVxMem (x : Nibble) (s : State) : Host.Outcome State Fault Refusal :=
  settle s ((s.memRead (s.ea 0) (x.toNat + 1)).map fun bs => s.advance.loadRegs 0 bs)

end Sys2Proof.Machine
end

