-- ==== Sys2Proof/Machine/KeysTimers.lean ====
section
/-! DEFINITION. Key tests, the key wait and the timers (45_keys_timers.md). -/

namespace Sys2Proof.Machine

/-- The key test of SKP and SKNP: key number `V[x]`, or KEY_OUT_OF_RANGE above 0x0F (R212). -/
def State.testKey (s : State) (k : Byte) : Except FaultCode Bool :=
  if k.toNat > 0x0F then .error .keyOutOfRange else .ok (s.pressed k.toNat)

/-- SKP Vx (R210). -/
def execSkpVx (x : Nibble) (s : State) : Host.Outcome State Fault Refusal :=
  settle s ((s.testKey (s.v x)).map fun down => s.advance.skipIf down)

/-- SKNP Vx (R211). -/
def execSknpVx (x : Nibble) (s : State) : Host.Outcome State Fault Refusal :=
  settle s ((s.testKey (s.v x)).map fun down => s.advance.skipIf !down)

/-- LD Vx,DT (R214). -/
def execLdVxDt (x : Nibble) (s : State) : Host.Outcome State Fault Refusal :=
  .next (s.advance.setV x s.DT)

/-- LD Vx,K on the eligible pressed keys `P`, with `c` the free choice: none, fetch this word again; else the chosen key goes
to V[x] (R215, R216). -/
def State.waitKey (s : State) (c : Nat) (x : Nibble) : List Nat → State
  | [] => s.rewind
  | k :: ks => (s.setV x (BitVec.ofNat 8 (chooseKey c k ks))).drawn

/-- LD Vx,K (R215). -/
def execLdVxK (x : Nibble) (s : State) : Host.Outcome State Fault Refusal :=
  .next (s.advance.waitKey (Config.keyChoice s.draws) x s.waitKeys)

/-- LD DT,Vx (R217). -/
def execLdDtVx (x : Nibble) (s : State) : Host.Outcome State Fault Refusal :=
  .next (s.advance.setDT (s.v x))

/-- LD ST,Vx (R218). -/
def execLdStVx (x : Nibble) (s : State) : Host.Outcome State Fault Refusal :=
  .next (s.advance.setST (s.v x))

end Sys2Proof.Machine
end

