-- ==== Sys2Proof/Machine/NullHandler.lean ====
section
/-! DEFINITION. The null handler (40_cycle.md R107): nothing but the cycle's own advance. It reads no operand. -/

namespace Sys2Proof.Machine

/-- Unmatched word of primary 0x0. -/
def execNop0 (s : State) : Host.Outcome State Fault Refusal := .next s.advance

/-- Unmatched word of primary 0x8. -/
def execNop8 (s : State) : Host.Outcome State Fault Refusal := .next s.advance

/-- Unmatched word of primary 0xE. -/
def execNopE (s : State) : Host.Outcome State Fault Refusal := .next s.advance

/-- Unmatched word of primary 0xF. -/
def execNopF (s : State) : Host.Outcome State Fault Refusal := .next s.advance

end Sys2Proof.Machine
end

