-- ==== Sys2Proof/Machine/Cycle.lean ====
section
/-! DEFINITION. The cycle (40_cycle.md R105), and placing an instruction where the next cycle fetches it. -/

namespace Sys2Proof.Machine

/-- `Cycle()`: a Faulted core has no step (R106); fetch, or FETCH_OUT_OF_RANGE before anything else (R101, R238); decode (R103);
advance and execute (R102, R104); and `opcode` holds the word fetched, unless the handler raised a fault (R100, R108). -/
def cycle (s : State) : Host.Outcome State Fault Refusal :=
  match s.status with
  | .faulted c a => .fault (.coreFaulted c a)
  | .running =>
    match s.fetch with
    | .error c => .next (s.raiseFault c)
    | .ok w => commitOpcode w (exec (decodeWord w) s)

/-- `s` made ready to fetch: running, and with a pc from which two bytes can be fetched. A state that is so already is unchanged
(log entry 15). -/
def State.readyToFetch (s : State) : State :=
  { s with status := .running, pc := if s.pc.toNat > 0xFFE then BitVec.ofNat 16 romBase else s.pc }

/-- The bytes of a table row's word stored at pc, high byte first. -/
def State.placeWord (s : State) (nbits w : Nat) : State :=
  s.readyToFetch.pokes s.readyToFetch.pc.toNat (bytesOfWord (tableWord nbits w))

end Sys2Proof.Machine
end

