-- ==== Sys2Proof/Machine/Transactions.lean ====
section
/-! DEFINITION. The host's transactions (60_exceptions.md R250-R257, 70_reset_and_hazards.md R270-R274). Each is atomic and falls
between two cycles; which comes when is the host's choice, so a host is a list of them. -/

namespace Sys2Proof.Machine

/-- The table of R251. -/
inductive Transaction where
  | reset
  | loadRom (rom : List Byte)
  | cycle
  | setKey (k : Nibble) (down : Bool)
  | tick
  | readFb
  | readSt
  | readStatus
  deriving DecidableEq, Repr

/-- The state RESET leaves: that of R42. The parameters are the machine's, and the count of free values goes on, so that
no free value is taken twice (log entry 6). -/
def State.afterReset (s : State) : State := { State.resetWith s.params with draws := s.draws }

/-- The host's one load is no longer to come (R257, log entry 25). -/
def State.closeLoad (s : State) : State := { s with loadOpen := false }

/-- LOAD_ROM (R271, R272): only what fits, and on the reset state only, which no state is after a load or a cycle, since each
closes the load (R257). -/
def State.loadRom (s : State) (rom : List Byte) : Host.Outcome State Fault Refusal :=
  if rom.length > maxRom then .refused .romTooLarge
  else if s = s.afterReset then .next (s.pokes romBase rom).closeLoad
  else .refused .loadRomNotAtReset

/-- SET_KEY (R252). -/
def State.setKey (s : State) (k : Nibble) (down : Bool) : State := { s with key := s.key.set k.toNat down }

/-- One timer's decrement: a timer at 0 stays 0 (R253). -/
def tickTimer (b : Byte) : Byte := if b.toNat > 0 then b - 1 else b

/-- TICK (R253). -/
def State.tick (s : State) : State := { s with DT := tickTimer s.DT, ST := tickTimer s.ST }

/-- What READ_FB returns: the 2048 cells, on as 0xFFFFFFFF and off as 0x00000000 (R36, R255). -/
def State.readFb (s : State) : List (BitVec 32) :=
  (List.range 2048).map fun c => if s.cell c then 0xFFFFFFFF else 0x00000000

/-- What READ_ST returns (R254). -/
def State.readSt (s : State) : Byte := s.ST

/-- The sound is on: ST is nonzero (R33, R254). -/
def State.soundOn (s : State) : Bool := s.ST != 0

/-- What READ_STATUS returns (R251). -/
def State.readStatus (s : State) : Status := s.status

/-- CYCLE: one step of the core, after which no ROM is loaded (R251, R271). -/
def State.hostCycle (s : State) : Host.Outcome State Fault Refusal :=
  match step s with
  | .next t => .next t.closeLoad
  | .fault r => .fault r
  | .refused r => .refused r

/-- What a transaction does to the state. The three reads change nothing (R251, R255). -/
def transact : Transaction → State → Host.Outcome State Fault Refusal
  | .reset, s => .next s.afterReset
  | .loadRom rom, s => s.loadRom rom
  | .cycle, s => s.hostCycle
  | .setKey k down, s => .next (s.setKey k down)
  | .tick, s => .next s.tick
  | .readFb, s => .next s
  | .readSt, s => .next s
  | .readStatus, s => .next s

/-- A host's run: the transactions in order, up to the first that has no next state. -/
def transactAll : List Transaction → State → Host.Outcome State Fault Refusal
  | [], s => .next s
  | x :: xs, s =>
    match transact x s with
    | .next t => transactAll xs t
    | .fault r => .fault r
    | .refused r => .refused r

end Sys2Proof.Machine
end

