-- ==== Sys2Proof/Safety.lean ====
section
/-! DEFINITION. The terms claims are stated in: which fields a step leaves unchanged, which fields and registers an instruction
writes and which faults it can raise, the invariants of the state, and what a safe run is. -/

namespace Sys2Proof.Machine

/-- The fields of State. -/
inductive Field where
  | mem | V | I | pc | stack | sp | DT | ST | key | fb | opcode | status | params | draws | loadOpen
  deriving DecidableEq, Repr

/-- Field `f` of `t` is as in `s`. Memory is compared through the read of one byte, the framebuffer through the read of one
cell. -/
def Unchanged (s t : State) : Field → Prop
  | .mem => ∀ a, t.peek a = s.peek a
  | .V => ∀ r, t.v r = s.v r
  | .I => t.I = s.I
  | .pc => t.pc = s.pc
  | .stack => t.stack = s.stack
  | .sp => t.sp = s.sp
  | .DT => t.DT = s.DT
  | .ST => t.ST = s.ST
  | .key => t.key = s.key
  | .fb => ∀ c, t.cell c = s.cell c
  | .opcode => t.opcode = s.opcode
  | .status => t.status = s.status
  | .params => t.params = s.params
  | .draws => t.draws = s.draws
  | .loadOpen => t.loadOpen = s.loadOpen

/-- The frame (00_scope.md R15): every field but those of `changed` is as before. -/
def Frame (changed : List Field) (s t : State) : Prop := ∀ f, f ∉ changed → Unchanged s t f

end Sys2Proof.Machine

namespace Sys2Proof

open Machine

/-- The fields an instruction's rule writes: the "written by" column of 10_state.md R20, and `draws`, the model's own. -/
def Instr.writes : Instr → List Field
  | .cls => [.pc, .fb]
  | .ret => [.pc, .sp]
  | .callAddr _ => [.pc, .sp, .stack]
  | .jpAddr _ | .jpV0Addr _ => [.pc]
  | .seVxByte _ _ | .sneVxByte _ _ | .seVxVy _ _ | .sneVxVy _ _ | .skpVx _ | .sknpVx _ => [.pc]
  | .ldVxByte _ _ | .addVxByte _ _ | .ldVxVy _ _ | .orVxVy _ _ | .andVxVy _ _ | .xorVxVy _ _ => [.pc, .V]
  | .addVxVy _ _ | .subVxVy _ _ | .shrVx _ | .subnVxVy _ _ | .shlVx _ => [.pc, .V]
  | .rndVxByte _ _ | .ldVxK _ => [.pc, .V, .draws]
  | .drwVxVyN _ _ _ => [.pc, .V, .fb]
  | .ldVxDt _ | .ldVxMem _ => [.pc, .V]
  | .ldDtVx _ => [.pc, .DT]
  | .ldStVx _ => [.pc, .ST]
  | .ldIAddr _ | .addIVx _ | .ldFVx _ => [.pc, .I]
  | .ldBVx _ | .ldMemVx _ => [.pc, .mem]
  | .nop0 _ | .nop8 _ | .nopE _ | .nopF _ => [.pc]

/-- The general registers an instruction may write: the list of 10_state.md R24. -/
def Instr.writesReg : Instr → Nibble → Bool
  | .ldVxByte x _, r | .addVxByte x _, r | .ldVxVy x _, r | .orVxVy x _, r | .andVxVy x _, r | .xorVxVy x _, r => r == x
  | .rndVxByte x _, r | .ldVxDt x, r | .ldVxK x, r => r == x
  | .addVxVy x _, r | .subVxVy x _, r | .shrVx x, r | .subnVxVy x _, r | .shlVx x, r => r == x || r == 0xF
  | .drwVxVyN _ _ _, r => r == 0xF
  | .ldVxMem x, r => decide (r.toNat ≤ x.toNat)
  | .cls, _ | .ret, _ | .jpAddr _, _ | .callAddr _, _ | .jpV0Addr _, _ => false
  | .seVxByte _ _, _ | .sneVxByte _ _, _ | .seVxVy _ _, _ | .sneVxVy _ _, _ | .skpVx _, _ | .sknpVx _, _ => false
  | .ldIAddr _, _ | .addIVx _, _ | .ldFVx _, _ | .ldBVx _, _ | .ldMemVx _, _ | .ldDtVx _, _ | .ldStVx _, _ => false
  | .nop0 _, _ | .nop8 _, _ | .nopE _, _ | .nopF _, _ => false

/-- The fault codes an instruction's handler can raise: the "raised by" column of 60_exceptions.md R231. -/
def Instr.faults : Instr → List FaultCode
  | .drwVxVyN _ _ _ => [.memOutOfRange, .fbOutOfRange]
  | .ldBVx _ | .ldMemVx _ | .ldVxMem _ => [.memOutOfRange]
  | .callAddr _ => [.stackOverflow]
  | .ret => [.stackUnderflow]
  | .skpVx _ | .sknpVx _ => [.keyOutOfRange]
  | .cls | .jpAddr _ | .jpV0Addr _ => []
  | .seVxByte _ _ | .sneVxByte _ _ | .seVxVy _ _ | .sneVxVy _ _ => []
  | .ldVxByte _ _ | .addVxByte _ _ | .ldVxVy _ _ | .orVxVy _ _ | .andVxVy _ _ | .xorVxVy _ _ => []
  | .addVxVy _ _ | .subVxVy _ _ | .shrVx _ | .subnVxVy _ _ | .shlVx _ | .rndVxByte _ _ => []
  | .ldVxDt _ | .ldVxK _ | .ldDtVx _ | .ldStVx _ | .ldIAddr _ | .addIVx _ | .ldFVx _ => []
  | .nop0 _ | .nop8 _ | .nopE _ | .nopF _ => []

end Sys2Proof

namespace Sys2Proof.Machine

/-- Invariant: memory has its canonical form, so that equal memories are equal data. -/
abbrev State.MemOk (s : State) : Prop := Memory.wf s.params.font s.mem = true

/-- Invariant: the bounds of 10_state.md R28. pc is at most the highest target of JP V0,addr, and a return address is an
advanced pc, at most 0x1000. -/
abbrev State.PcOk (s : State) : Prop :=
  s.pc.toNat ≤ 0x10FE ∧ ∀ j : Fin 16, s.stack[j].toNat ≤ 0x1000

/-- Key `k` ends LD Vx,K: it is in 0..WAIT_KEY_LAST and pressed (45_keys_timers.md R215). -/
abbrev State.EndsWait (s : State) (k : Nat) : Prop :=
  k ≤ s.params.waitKeyLast.toNat ∧ s.pressed k = true

/-- A set bit of the sprite that DRW Vx,Vy,n draws in state `s` targets cell `c` (44_display.md R191, R192): row `row` of the
sprite is the byte at I + row, and its column `col` is bit 7 - col. -/
def State.SpriteHits (s : State) (x y n : Nibble) (c : Nat) : Prop :=
  ∃ row col, row < n.toNat ∧ col < 8 ∧ (s.peek (s.I.toNat + row)).getLsbD (7 - col) = true ∧
    c = ((s.v y).toNat % s.params.drwYWrap.toNat + row) * 64 + ((s.v x).toNat % 64 + col)

/-- From `s` a step goes on by two, and the step after it runs the instruction of the word `w`: it is `exec` of it, with `opcode`
the word unless the handler faulted. -/
def State.NextStepRuns (s : State) (w : Word) : Prop :=
  ∃ t, step s = .next t ∧ t.pc = s.pc + 2 ∧ ∀ u, exec (decodeWord w) t = .next u →
    (u.status = .running → step t = .next { u with opcode := w }) ∧ (u.status ≠ .running → step t = .next u)

/-- A host's run from `s` is safe: it is refused nowhere, and no cycle of it faults (60_exceptions.md R234). -/
def SafeRun (xs : List Transaction) (s : State) : Prop :=
  ∃ t, transactAll xs s = .next t ∧ t.status = .running

end Sys2Proof.Machine
end

