-- ==== Sys2Proof/Certificates/Slice0/Obligations.lean ====
section
/-! DEFINITION. The statements for the provers. Each is a `def Obligations.<Name> : Prop`; OBLIGATIONS.json lists them with the
rules they formalise. An instruction's statement has a clause on its encoding (every word of its row decodes to it, the ignored
bits at every value) and a clause on what `exec` answers: the next state by its fields, and the frame. -/

open Sys2Proof Sys2Proof.Machine

/-! ### Control flow (41_control_flow.md) -/

/-- R120. -/
def Obligations.RetPopsOrUnderflows : Prop :=
  (∀ ign : Byte, decodeWord (0x0#4 ++ ign ++ 0xE#4) = .ret) ∧
  ∀ s : State,
    (∀ k (_ : s.sp.val = k + 1) (_ : k < 16), ∃ t, exec .ret s = .next t ∧ Frame [.pc, .sp] s t ∧
      t.sp.val = k ∧ t.pc = s.stack[k]) ∧
    (s.sp.val = 0 → exec .ret s = .next { s with status := .faulted .stackUnderflow s.pc })

/-- R121. The last clause is the rule's corner case: a jump to itself changes nothing but `opcode`. -/
def Obligations.JpAddrJumps : Prop :=
  ∀ nnn : Addr, decodeWord (0x1#4 ++ nnn) = .jpAddr nnn ∧
    (∀ s : State, ∃ t, exec (.jpAddr nnn) s = .next t ∧ Frame [.pc] s t ∧ t.pc.toNat = nnn.toNat) ∧
    (∀ s : State, s.status = .running → s.pc.toNat ≤ 0xFFE → s.pc.toNat = nnn.toNat →
      s.peek s.pc.toNat ++ s.peek (s.pc.toNat + 1) = (0x1#4 ++ nnn : Word) →
      step s = .next { s with opcode := 0x1#4 ++ nnn })

/-- R122. -/
def Obligations.CallPushesOrOverflows : Prop :=
  ∀ nnn : Addr, decodeWord (0x2#4 ++ nnn) = .callAddr nnn ∧ ∀ s : State,
    (s.sp.val < 16 → ∃ t, exec (.callAddr nnn) s = .next t ∧ Frame [.pc, .sp, .stack] s t ∧
      t.pc.toNat = nnn.toNat ∧ t.sp.val = s.sp.val + 1 ∧
      ∀ j : Fin 16, t.stack[j] = if j.val = s.sp.val then s.pc + 2 else s.stack[j]) ∧
    (s.sp.val = 16 → exec (.callAddr nnn) s = .next { s with status := .faulted .stackOverflow s.pc })

/-- The round trip of R123, from R120 and R122: whatever ran between, a RET that finds the stack as the CALL left it restores sp
and goes to the address after the CALL; and with the RET at the CALL's target, two steps do both. -/
def Obligations.CallThenRetReturns : Prop :=
  ∀ (nnn : Addr) (s : State), s.sp.val < 16 →
    (∃ t, exec (.callAddr nnn) s = .next t ∧ ∀ u, u.sp = t.sp → u.stack = t.stack →
      ∃ v, exec .ret u = .next v ∧ v.sp = s.sp ∧ v.pc = s.pc + 2) ∧
    ∀ ign : Byte, s.status = .running → s.pc.toNat ≤ 0xFFE → nnn.toNat ≤ 0xFFE →
      s.peek s.pc.toNat ++ s.peek (s.pc.toNat + 1) = (0x2#4 ++ nnn : Word) →
      s.peek nnn.toNat ++ s.peek (nnn.toNat + 1) = (0x0#4 ++ ign ++ 0xE#4 : Word) →
      ∃ t u, step s = .next t ∧ step t = .next u ∧ u.sp = s.sp ∧ u.pc = s.pc + 2 ∧
        Frame [.pc, .stack, .opcode] s u

/-- R125, R126. -/
def Obligations.ByteSkipsCompareWithImmediate : Prop :=
  ∀ (x : Nibble) (kk : Byte),
    decodeWord (0x3#4 ++ x ++ kk) = .seVxByte x kk ∧ decodeWord (0x4#4 ++ x ++ kk) = .sneVxByte x kk ∧ ∀ s : State,
    (∃ t, exec (.seVxByte x kk) s = .next t ∧ Frame [.pc] s t ∧ t.pc = s.pc + if s.v x = kk then 4 else 2) ∧
    (∃ t, exec (.sneVxByte x kk) s = .next t ∧ Frame [.pc] s t ∧ t.pc = s.pc + if s.v x = kk then 2 else 4)

/-- R127, R128. -/
def Obligations.RegisterSkipsCompareRegisters : Prop :=
  ∀ x y : Nibble,
    (∀ ign : Nibble, decodeWord (0x5#4 ++ x ++ y ++ ign) = .seVxVy x y ∧ decodeWord (0x9#4 ++ x ++ y ++ ign) = .sneVxVy x y) ∧
    ∀ s : State,
    (∃ t, exec (.seVxVy x y) s = .next t ∧ Frame [.pc] s t ∧ t.pc = s.pc + if s.v x = s.v y then 4 else 2) ∧
    (∃ t, exec (.sneVxVy x y) s = .next t ∧ Frame [.pc] s t ∧ t.pc = s.pc + if s.v x = s.v y then 2 else 4)

/-- R133: the target is the sum as an integer, so nothing wraps. -/
def Obligations.JpV0AddrJumpsToSum : Prop :=
  ∀ nnn : Addr, decodeWord (0xB#4 ++ nnn) = .jpV0Addr nnn ∧ ∀ s : State,
    ∃ t, exec (.jpV0Addr nnn) s = .next t ∧ Frame [.pc] s t ∧ t.pc.toNat = nnn.toNat + (s.v 0).toNat

/-! ### Register loads and ALU (42_alu.md) -/

/-- R140. -/
def Obligations.LdVxByteLoadsImmediate : Prop :=
  ∀ (x : Nibble) (kk : Byte), decodeWord (0x6#4 ++ x ++ kk) = .ldVxByte x kk ∧ ∀ s : State,
    ∃ t, exec (.ldVxByte x kk) s = .next t ∧ Frame [.pc, .V] s t ∧ t.pc = s.pc + 2 ∧
      ∀ r, t.v r = if r = x then kk else s.v r

/-- R141. -/
def Obligations.AddVxByteAddsWithoutFlag : Prop :=
  ∀ (x : Nibble) (kk : Byte), decodeWord (0x7#4 ++ x ++ kk) = .addVxByte x kk ∧ ∀ s : State,
    ∃ t, exec (.addVxByte x kk) s = .next t ∧ Frame [.pc, .V] s t ∧ t.pc = s.pc + 2 ∧
      (t.v x).toNat = ((s.v x).toNat + kk.toNat) % 256 ∧ ∀ r, r ≠ x → t.v r = s.v r

/-- R142. -/
def Obligations.LdVxVyMovesRegister : Prop :=
  ∀ x y : Nibble, decodeWord (0x8#4 ++ x ++ y ++ 0x0#4) = .ldVxVy x y ∧ ∀ s : State,
    ∃ t, exec (.ldVxVy x y) s = .next t ∧ Frame [.pc, .V] s t ∧ t.pc = s.pc + 2 ∧
      ∀ r, t.v r = if r = x then s.v y else s.v r

/-- R143 to R146: VF is unchanged unless x is 0xF. -/
def Obligations.LogicOpsCombineWithoutFlag : Prop :=
  ∀ x y : Nibble,
    decodeWord (0x8#4 ++ x ++ y ++ 0x1#4) = .orVxVy x y ∧
    decodeWord (0x8#4 ++ x ++ y ++ 0x2#4) = .andVxVy x y ∧
    decodeWord (0x8#4 ++ x ++ y ++ 0x3#4) = .xorVxVy x y ∧ ∀ s : State,
    (∃ t, exec (.orVxVy x y) s = .next t ∧ Frame [.pc, .V] s t ∧ t.pc = s.pc + 2 ∧
      (∀ b, (t.v x).getLsbD b = ((s.v x).getLsbD b || (s.v y).getLsbD b)) ∧ ∀ r, r ≠ x → t.v r = s.v r) ∧
    (∃ t, exec (.andVxVy x y) s = .next t ∧ Frame [.pc, .V] s t ∧ t.pc = s.pc + 2 ∧
      (∀ b, (t.v x).getLsbD b = ((s.v x).getLsbD b && (s.v y).getLsbD b)) ∧ ∀ r, r ≠ x → t.v r = s.v r) ∧
    (∃ t, exec (.xorVxVy x y) s = .next t ∧ Frame [.pc, .V] s t ∧ t.pc = s.pc + 2 ∧
      (∀ b, (t.v x).getLsbD b = ((s.v x).getLsbD b ^^ (s.v y).getLsbD b)) ∧ ∀ r, r ≠ x → t.v r = s.v r)

/-- R147, R148: the sum of the old operands goes to V[x]; VF is the carry, unless x is 0xF, when it is the sum. -/
def Obligations.AddVxVySetsCarry : Prop :=
  ∀ x y : Nibble, decodeWord (0x8#4 ++ x ++ y ++ 0x4#4) = .addVxVy x y ∧ ∀ s : State,
    ∃ t, exec (.addVxVy x y) s = .next t ∧ Frame [.pc, .V] s t ∧ t.pc = s.pc + 2 ∧
      (t.v x).toNat = ((s.v x).toNat + (s.v y).toNat) % 256 ∧
      (x ≠ 0xF → t.v 0xF = if (s.v x).toNat + (s.v y).toNat > 255 then 1 else 0) ∧
      ∀ r, r ≠ x → r ≠ 0xF → t.v r = s.v r

/-- R149, R150: VF is 1 exactly when V[x] > V[y]; the difference reads its operands after that write, so an operand that is VF
is the flag. -/
def Obligations.SubVxVySetsStrictFlag : Prop :=
  ∀ x y : Nibble, decodeWord (0x8#4 ++ x ++ y ++ 0x5#4) = .subVxVy x y ∧ ∀ s : State, ∀ flag : Byte,
    flag = (if (s.v x).toNat > (s.v y).toNat then 1 else 0) →
    ∃ t, exec (.subVxVy x y) s = .next t ∧ Frame [.pc, .V] s t ∧ t.pc = s.pc + 2 ∧
      t.v x = (if x = 0xF then flag else s.v x) - (if y = 0xF then flag else s.v y) ∧
      (x ≠ 0xF → t.v 0xF = flag) ∧ ∀ r, r ≠ x → r ≠ 0xF → t.v r = s.v r

/-- R151, R152: VF is the bit shifted out, unless x is 0xF, when the shift of that bit leaves 0. -/
def Obligations.ShrVxShiftsRight : Prop :=
  ∀ x : Nibble, (∀ ign : Nibble, decodeWord (0x8#4 ++ x ++ ign ++ 0x6#4) = .shrVx x) ∧ ∀ s : State,
    ∃ t, exec (.shrVx x) s = .next t ∧ Frame [.pc, .V] s t ∧ t.pc = s.pc + 2 ∧
      (t.v x).toNat = (if x = 0xF then 0 else (s.v x).toNat / 2) ∧
      (x ≠ 0xF → (t.v 0xF).toNat = (s.v x).toNat % 2) ∧ ∀ r, r ≠ x → r ≠ 0xF → t.v r = s.v r

/-- R153, R154: SUB with the operands exchanged. -/
def Obligations.SubnVxVySetsStrictFlag : Prop :=
  ∀ x y : Nibble, decodeWord (0x8#4 ++ x ++ y ++ 0x7#4) = .subnVxVy x y ∧ ∀ s : State, ∀ flag : Byte,
    flag = (if (s.v y).toNat > (s.v x).toNat then 1 else 0) →
    ∃ t, exec (.subnVxVy x y) s = .next t ∧ Frame [.pc, .V] s t ∧ t.pc = s.pc + 2 ∧
      t.v x = (if y = 0xF then flag else s.v y) - (if x = 0xF then flag else s.v x) ∧
      (x ≠ 0xF → t.v 0xF = flag) ∧ ∀ r, r ≠ x → r ≠ 0xF → t.v r = s.v r

/-- R155, R156: VF is bit 7, unless x is 0xF, when that bit is shifted once more. -/
def Obligations.ShlVxShiftsLeft : Prop :=
  ∀ x : Nibble, (∀ ign : Nibble, decodeWord (0x8#4 ++ x ++ ign ++ 0xE#4) = .shlVx x) ∧ ∀ s : State,
    ∃ t, exec (.shlVx x) s = .next t ∧ Frame [.pc, .V] s t ∧ t.pc = s.pc + 2 ∧
      (t.v x).toNat = (if x = 0xF then (s.v x).toNat / 128 * 2 else (s.v x).toNat * 2 % 256) ∧
      (x ≠ 0xF → (t.v 0xF).toNat = (s.v x).toNat / 128) ∧ ∀ r, r ≠ x → r ≠ 0xF → t.v r = s.v r

/-- R163. The form of the draw is the model's: it is the free value `Config.randomByte` at the count `draws` (log entries 4 and 6).
Nothing is known of that value, so what holds here holds for every draw. -/
def Obligations.RndVxByteMasksADraw : Prop :=
  ∀ (x : Nibble) (kk : Byte), decodeWord (0xC#4 ++ x ++ kk) = .rndVxByte x kk ∧ ∀ s : State,
    ∃ t, exec (.rndVxByte x kk) s = .next t ∧ Frame [.pc, .V, .draws] s t ∧ t.pc = s.pc + 2 ∧
      (∀ b, (t.v x).getLsbD b = ((Config.randomByte s.draws).getLsbD b && kk.getLsbD b)) ∧ ∀ r, r ≠ x → t.v r = s.v r

/-! ### Index register and memory (43_index_memory.md) -/

/-- R170. -/
def Obligations.LdIAddrLoadsIndex : Prop :=
  ∀ nnn : Addr, decodeWord (0xA#4 ++ nnn) = .ldIAddr nnn ∧ ∀ s : State,
    ∃ t, exec (.ldIAddr nnn) s = .next t ∧ Frame [.pc, .I] s t ∧ t.pc = s.pc + 2 ∧ t.I.toNat = nnn.toNat

/-- R171. -/
def Obligations.AddIVxAddsModulo : Prop :=
  ∀ x : Nibble, decodeWord (0xF#4 ++ x ++ 0x1E#8) = .addIVx x ∧ ∀ s : State,
    ∃ t, exec (.addIVx x) s = .next t ∧ Frame [.pc, .I] s t ∧ t.pc = s.pc + 2 ∧
      t.I.toNat = (s.I.toNat + (s.v x).toNat) % 0x10000

/-- R172, R173. -/
def Obligations.LdFVxPointsAtGlyph : Prop :=
  ∀ x : Nibble, decodeWord (0xF#4 ++ x ++ 0x29#8) = .ldFVx x ∧ ∀ s : State,
    ∃ t, exec (.ldFVx x) s = .next t ∧ Frame [.pc, .I] s t ∧ t.pc = s.pc + 2 ∧
      t.I.toNat = 0x050 + 5 * (s.v x).toNat

/-- R174. What is read back needs the canonical form of memory (the invariant of CycleKeepsMemoryCanonical); the bytes outside
the three stored ones need nothing. The address stored to is `s.ea 0`, as in the meaning. -/
def Obligations.LdBVxStoresDigits : Prop :=
  ∀ x : Nibble, decodeWord (0xF#4 ++ x ++ 0x33#8) = .ldBVx x ∧ ∀ s : State,
    (s.I.toNat + 2 ≤ 0xFFF → ∃ t, exec (.ldBVx x) s = .next t ∧ Frame [.pc, .mem] s t ∧ t.pc = s.pc + 2 ∧
      (∀ a, a < s.ea 0 ∨ s.ea 0 + 3 ≤ a → t.peek a = s.peek a) ∧
      (s.MemOk → (t.peek (s.I.toNat)).toNat = (s.v x).toNat / 100 ∧
        (t.peek (s.I.toNat + 1)).toNat = (s.v x).toNat / 10 % 10 ∧
        (t.peek (s.I.toNat + 2)).toNat = (s.v x).toNat % 10)) ∧
    (s.I.toNat + 2 > 0xFFF → exec (.ldBVx x) s = .next { s with status := .faulted .memOutOfRange s.pc })

/-- R176, R179. As for LdBVxStoresDigits. -/
def Obligations.LdMemVxStoresRegisters : Prop :=
  ∀ x : Nibble, decodeWord (0xF#4 ++ x ++ 0x55#8) = .ldMemVx x ∧ ∀ s : State,
    (s.I.toNat + x.toNat ≤ 0xFFF → ∃ t, exec (.ldMemVx x) s = .next t ∧ Frame [.pc, .mem] s t ∧ t.pc = s.pc + 2 ∧
      (∀ a, a < s.ea 0 ∨ s.ea 0 + (x.toNat + 1) ≤ a → t.peek a = s.peek a) ∧
      (s.MemOk → ∀ k : Nibble, k.toNat ≤ x.toNat → t.peek (s.I.toNat + k.toNat) = s.v k)) ∧
    (s.I.toNat + x.toNat > 0xFFF → exec (.ldMemVx x) s = .next { s with status := .faulted .memOutOfRange s.pc })

/-- R178, R179. -/
def Obligations.LdVxMemLoadsRegisters : Prop :=
  ∀ x : Nibble, decodeWord (0xF#4 ++ x ++ 0x65#8) = .ldVxMem x ∧ ∀ s : State,
    (s.I.toNat + x.toNat ≤ 0xFFF → ∃ t, exec (.ldVxMem x) s = .next t ∧ Frame [.pc, .V] s t ∧ t.pc = s.pc + 2 ∧
      ∀ k : Nibble, t.v k = if k.toNat ≤ x.toNat then s.peek (s.I.toNat + k.toNat) else s.v k) ∧
    (s.I.toNat + x.toNat > 0xFFF → exec (.ldVxMem x) s = .next { s with status := .faulted .memOutOfRange s.pc })

/-! ### Display (44_display.md) -/

/-- R190. -/
def Obligations.ClsClearsScreen : Prop :=
  (∀ ign : Byte, decodeWord (0x0#4 ++ ign ++ 0x0#4) = .cls) ∧ ∀ s : State,
    ∃ t, exec .cls s = .next t ∧ Frame [.pc, .fb] s t ∧ t.pc = s.pc + 2 ∧ ∀ c, t.cell c = false

/-- R192, R193, R195. With every row in memory and every set bit in the framebuffer, a cell is flipped exactly when a set bit
targets it, and VF is 1 exactly when such a cell was on; the positions are those of the old registers, with no wrap past the start
position. A row above 0xFFF faults MEM_OUT_OF_RANGE; else a set bit past cell 2047 faults FB_OUT_OF_RANGE; a fault writes nothing. -/
def Obligations.DrwDrawsOrFaults : Prop :=
  ∀ x y n : Nibble, decodeWord (0xD#4 ++ x ++ y ++ n) = .drwVxVyN x y n ∧ ∀ s : State,
    ((n.toNat = 0 ∨ s.I.toNat + (n.toNat - 1) ≤ 0xFFF) → (∀ c, s.SpriteHits x y n c → c ≤ 2047) →
      ∃ t, exec (.drwVxVyN x y n) s = .next t ∧ Frame [.pc, .V, .fb] s t ∧ t.pc = s.pc + 2 ∧
        (∀ c, s.SpriteHits x y n c → t.cell c = !s.cell c) ∧
        (∀ c, ¬ s.SpriteHits x y n c → t.cell c = s.cell c) ∧
        ((∃ c, s.SpriteHits x y n c ∧ s.cell c = true) → t.v 0xF = 1) ∧
        ((∀ c, s.SpriteHits x y n c → s.cell c = false) → t.v 0xF = 0) ∧
        ∀ r, r ≠ 0xF → t.v r = s.v r) ∧
    (n.toNat ≠ 0 → s.I.toNat + (n.toNat - 1) > 0xFFF →
      exec (.drwVxVyN x y n) s = .next { s with status := .faulted .memOutOfRange s.pc }) ∧
    ((n.toNat = 0 ∨ s.I.toNat + (n.toNat - 1) ≤ 0xFFF) → (∃ c, s.SpriteHits x y n c ∧ c > 2047) →
      exec (.drwVxVyN x y n) s = .next { s with status := .faulted .fbOutOfRange s.pc })

/-- The two draws of R197: a second draw at the same place restores every cell. It sets VF exactly when some targeted cell was off
before the first draw, as the pseudocode of R192 has it; R197 says "when the sprite has any set bit", which is so on a blank screen
(log entry 16). x and y are not 0xF, or the first draw would change the place. -/
def Obligations.DrawingTwiceRestores : Prop :=
  ∀ (x y n : Nibble) (s t : State), x ≠ 0xF → y ≠ 0xF → s.status = .running → t.status = .running →
    exec (.drwVxVyN x y n) s = .next t →
    ∃ u, exec (.drwVxVyN x y n) t = .next u ∧ Frame [.pc, .V] s u ∧ (∀ c, u.cell c = s.cell c) ∧
      ((∃ c, s.SpriteHits x y n c ∧ s.cell c = false) → u.v 0xF = 1) ∧
      ((∀ c, s.SpriteHits x y n c → s.cell c = true) → u.v 0xF = 0) ∧
      ∀ r, r ≠ 0xF → u.v r = s.v r

/-! ### Keypad and timers (45_keys_timers.md) -/

/-- R210, R211, R212. -/
def Obligations.KeySkipsTestOneKey : Prop :=
  ∀ x : Nibble,
    (∀ ign : Nibble, decodeWord (0xE#4 ++ x ++ ign ++ 0xE#4) = .skpVx x ∧ decodeWord (0xE#4 ++ x ++ ign ++ 0x1#4) = .sknpVx x) ∧
    ∀ s : State,
    (∀ k : Fin 16, (s.v x).toNat = k.val →
      (∃ t, exec (.skpVx x) s = .next t ∧ Frame [.pc] s t ∧ t.pc = s.pc + if s.key[k] = true then 4 else 2) ∧
      ∃ t, exec (.sknpVx x) s = .next t ∧ Frame [.pc] s t ∧ t.pc = s.pc + if s.key[k] = true then 2 else 4) ∧
    ((s.v x).toNat > 0x0F →
      exec (.skpVx x) s = .next { s with status := .faulted .keyOutOfRange s.pc } ∧
      exec (.sknpVx x) s = .next { s with status := .faulted .keyOutOfRange s.pc })

/-- R214. -/
def Obligations.LdVxDtReadsDelayTimer : Prop :=
  ∀ x : Nibble, decodeWord (0xF#4 ++ x ++ 0x07#8) = .ldVxDt x ∧ ∀ s : State,
    ∃ t, exec (.ldVxDt x) s = .next t ∧ Frame [.pc, .V] s t ∧ t.pc = s.pc + 2 ∧
      ∀ r, t.v r = if r = x then s.DT else s.v r

/-- R215: with no eligible key pressed nothing changes, pc included, so the same word is fetched again; otherwise some pressed
eligible key goes to V[x]. Which one is the free value `Config.keyChoice`. -/
def Obligations.LdVxKWaitsForKey : Prop :=
  ∀ x : Nibble, decodeWord (0xF#4 ++ x ++ 0x0A#8) = .ldVxK x ∧ ∀ s : State,
    ((∀ k, ¬ s.EndsWait k) → ∃ t, exec (.ldVxK x) s = .next t ∧ Frame [] s t) ∧
    ((∃ k, s.EndsWait k) → ∃ t k, exec (.ldVxK x) s = .next t ∧ s.EndsWait k ∧ Frame [.pc, .V, .draws] s t ∧
      t.pc = s.pc + 2 ∧ (t.v x).toNat = k ∧ ∀ r, r ≠ x → t.v r = s.v r)

/-- R216: LD Vx,K is the operation `State.waitKey` at the free value `Config.keyChoice` (log entry 5). For every value of the
choice that operation writes some pressed eligible key, and for every such key there is a choice that writes it. -/
def Obligations.EveryPressedKeyCanEndTheWait : Prop :=
  ∀ (s : State) (x : Nibble),
    exec (.ldVxK x) s = .next (s.advance.waitKey (Config.keyChoice s.draws) x s.waitKeys) ∧
    ((∃ k, s.EndsWait k) → ∀ c, ∃ k, s.EndsWait k ∧ ((s.advance.waitKey c x s.waitKeys).v x).toNat = k) ∧
    ∀ k, s.EndsWait k → ∃ c, ((s.advance.waitKey c x s.waitKeys).v x).toNat = k

/-- R217, R218. -/
def Obligations.TimerWritesSetTimers : Prop :=
  ∀ x : Nibble, decodeWord (0xF#4 ++ x ++ 0x15#8) = .ldDtVx x ∧ decodeWord (0xF#4 ++ x ++ 0x18#8) = .ldStVx x ∧ ∀ s : State,
    (∃ t, exec (.ldDtVx x) s = .next t ∧ Frame [.pc, .DT] s t ∧ t.pc = s.pc + 2 ∧ t.DT = s.v x) ∧
    ∃ t, exec (.ldStVx x) s = .next t ∧ Frame [.pc, .ST] s t ∧ t.pc = s.pc + 2 ∧ t.ST = s.v x ∧ t.soundOn = decide (s.v x ≠ 0)

/-! ### The cycle and the null handler (40_cycle.md) -/

/-- R82, R107, as exec: every unmatched word decodes to its null-handler row, whose meaning only advances pc. -/
def Obligations.UnmatchedWordsOnlyAdvance : Prop :=
  ∀ rest : BitVec 12,
    (lowNibble rest ≠ 0x0 → lowNibble rest ≠ 0xE → decodeWord (0x0#4 ++ rest) = .nop0 rest) ∧
    ((0x8 ≤ (lowNibble rest).toNat ∧ (lowNibble rest).toNat ≤ 0xD ∨ lowNibble rest = 0xF) →
      decodeWord (0x8#4 ++ rest) = .nop8 rest) ∧
    (lowNibble rest ≠ 0x1 → lowNibble rest ≠ 0xE → decodeWord (0xE#4 ++ rest) = .nopE rest) ∧
    (lowByte rest ∉ ([0x07, 0x0A, 0x15, 0x18, 0x1E, 0x29, 0x33, 0x55, 0x65] : List Byte) →
      decodeWord (0xF#4 ++ rest) = .nopF rest) ∧
    ∀ s : State, ∀ i ∈ [Instr.nop0 rest, .nop8 rest, .nopE rest, .nopF rest],
      ∃ t, exec i s = .next t ∧ Frame [.pc] s t ∧ t.pc = s.pc + 2

/-- R107, as a cycle: a running core at an unmatched word ends the cycle with pc = a + 2 and opcode = word, and nothing else
changed. -/
def Obligations.NullHandlerCycle : Prop :=
  ∀ (s : State) (w : Word), s.status = .running → s.pc.toNat ≤ 0xFFE →
    s.peek s.pc.toNat ++ s.peek (s.pc.toNat + 1) = w →
    (∃ rest, decodeWord w ∈ [Instr.nop0 rest, .nop8 rest, .nopE rest, .nopF rest]) →
    step s = .next { s with pc := s.pc + 2, opcode := w }

/-- R100, R102 to R105, R108: a running core whose pc is at most 0xFFE runs the instruction that the big-endian word at pc decodes
to. The step is exec of it. That exec advances pc itself, and that opcode is put on after it, and only where the handler raised no
fault, is the model's form (log entry 2). -/
def Obligations.CycleRunsDecodedInstruction : Prop :=
  ∀ s t : State, s.status = .running → s.pc.toNat ≤ 0xFFE →
    exec (decodeWord (s.peek s.pc.toNat ++ s.peek (s.pc.toNat + 1))) s = .next t →
    (t.status = .running → step s = .next { t with opcode := s.peek s.pc.toNat ++ s.peek (s.pc.toNat + 1) }) ∧
    (t.status ≠ .running → step s = .next t)

/-- R101, R238: the fetch's fault comes before anything else and leaves the state as it was but for status. -/
def Obligations.FetchOutOfRangeFaults : Prop :=
  ∀ s : State, s.status = .running → s.pc.toNat > 0xFFE →
    step s = .next { s with status := .faulted .fetchOutOfRange s.pc }

/-- R106: a cycle of a Faulted core has no step. That the model's outcome for it is the fault `coreFaulted`, with the code and address
of status, is log entry 1. -/
def Obligations.FaultedCoreHasNoCycle : Prop :=
  ∀ (s : State) (c : FaultCode) (a : Word), s.status = .faulted c a → step s = .fault (.coreFaulted c a)

/-- R108, R232: a cycle that raises a fault leaves the state at its start but for status, which records the code and the address
of the instruction; and it records no other. -/
def Obligations.FaultsArePrecise : Prop :=
  ∀ s t : State, s.status = .running → step s = .next t → t.status ≠ .running →
    ∃ c, t = { s with status := .faulted c s.pc }

/-- R231, R238: from a running state a handler answers a next state, still running or faulted with one of the codes the table
gives its instruction, at the address of the instruction; none raises FETCH_OUT_OF_RANGE. -/
def Obligations.HandlersRaiseOnlyTheirFaults : Prop :=
  ∀ (i : Instr) (s : State), s.status = .running → ∃ t, exec i s = .next t ∧
    (t.status = .running ∨ ∃ c ∈ i.faults, t.status = .faulted c s.pc) ∧ FaultCode.fetchOutOfRange ∉ i.faults

/-- R110: a cycle never writes the keypad, and moves a timer only where it runs LD DT,Vx or LD ST,Vx. -/
def Obligations.CycleLeavesKeysAndTimers : Prop :=
  ∀ s t : State, step s = .next t →
    t.key = s.key ∧
    (t.DT ≠ s.DT → ∃ x, decodeWord (s.peek s.pc.toNat ++ s.peek (s.pc.toNat + 1)) = .ldDtVx x ∧ t.DT = s.v x) ∧
    (t.ST ≠ s.ST → ∃ x, decodeWord (s.peek s.pc.toNat ++ s.peek (s.pc.toNat + 1)) = .ldStVx x ∧ t.ST = s.v x)

/-- R83: no word traps for its encoding, and there is nothing a running core cannot run: its step always answers a next state. -/
def Obligations.RunningCoreAlwaysSteps : Prop :=
  ∀ s : State, s.status = .running → ∃ t, step s = .next t ∧ (t.status = .running ∨ ∃ c, t.status = .faulted c s.pc)

/-! ### Whole-machine frames (10_state.md, 00_scope.md R15) -/

/-- R15, R20: over all instructions, a handler changes no field but those its rule writes, and status where it raises a fault. -/
def Obligations.HandlersWriteOnlyTheirFields : Prop :=
  ∀ (i : Instr) (s t : State), exec i s = .next t →
    Frame (.status :: i.writes) s t ∧ (t.status = s.status → Frame i.writes s t)

/-- R24 (the spec's own inference): over all instructions, a general register changes only where the rule's list names it. -/
def Obligations.OnlyListedRegistersChange : Prop :=
  ∀ (i : Instr) (s t : State) (r : Nibble), exec i s = .next t → t.v r ≠ s.v r → i.writesReg r = true

/-- The model's own count of free values (log entries 4, 5 and 6). Only RND, and LD Vx,K with an eligible key pressed, move it; each
of them always does, by one; and no transaction of the host moves it back, RESET included. So no free value is taken for two
draws. -/
def Obligations.FreeValuesAreTakenOnce : Prop :=
  (∀ (i : Instr) (s t : State), exec i s = .next t → t.draws ≠ s.draws →
    t.draws = s.draws + 1 ∧ ((∃ x kk, i = .rndVxByte x kk) ∨ ∃ x, i = .ldVxK x ∧ ∃ k, s.EndsWait k)) ∧
  (∀ (x : Nibble) (kk : Byte) (s : State), ∃ t, exec (.rndVxByte x kk) s = .next t ∧ t.draws = s.draws + 1) ∧
  (∀ (x : Nibble) (s : State), (∃ k, s.EndsWait k) → ∃ t, exec (.ldVxK x) s = .next t ∧ t.draws = s.draws + 1) ∧
  ∀ (x : Transaction) (s t : State), transact x s = .next t → s.draws ≤ t.draws

/-- R29: over all instructions, I changes only in LD I,addr, ADD I,Vx and LD F,Vx. -/
def Obligations.OnlyIndexInstructionsWriteIndex : Prop :=
  ∀ (i : Instr) (s t : State), exec i s = .next t → t.I ≠ s.I →
    (∃ nnn, i = .ldIAddr nnn ∧ t.I.toNat = nnn.toNat) ∨
    (∃ x, i = .addIVx x ∧ t.I.toNat = (s.I.toNat + (s.v x).toNat) % 0x10000) ∨
    (∃ x, i = .ldFVx x ∧ t.I.toNat = 0x050 + 5 * (s.v x).toNat)

/-- R50: over all instructions, a byte of memory changes only by LD B,Vx at I to I + 2 or by LD [I],Vx at I to I + x. -/
def Obligations.OnlyStoresWriteMemory : Prop :=
  ∀ (i : Instr) (s t : State) (a : Nat), exec i s = .next t → t.peek a ≠ s.peek a →
    (∃ x, i = .ldBVx x ∧ s.I.toNat ≤ a ∧ a ≤ s.I.toNat + 2 ∧ a ≤ 0xFFF) ∨
    (∃ x, i = .ldMemVx x ∧ s.I.toNat ≤ a ∧ a ≤ s.I.toNat + x.toNat ∧ a ≤ 0xFFF)

/-! ### Memory (20_memory.md) -/

/-- R63, R281 (the spec's own inference): a store over the next word is what the next step runs, whatever stood there and whatever
else was stored over, the running instruction's own word included, which completes as fetched. For LD [I],Vx, every x and every I
whose block covers both bytes of the next word: V[k] is stored at pc + 2. For LD B,Vx, both places where the digits cover them. That
memory reads back what was stored needs its canonical form (log entry 7), and a step's form is log entry 2. -/
def Obligations.StoreIsSeenByNextFetch : Prop :=
  ∀ (s : State) (x : Nibble), s.MemOk → s.status = .running →
    (decodeWord (s.peek s.pc.toNat ++ s.peek (s.pc.toNat + 1)) = .ldMemVx x → s.I.toNat + x.toNat ≤ 0xFFF →
      ∀ k : Nibble, s.I.toNat + k.toNat = s.pc.toNat + 2 → k.toNat + 1 ≤ x.toNat → s.NextStepRuns (s.v k ++ s.v (k + 1))) ∧
    (decodeWord (s.peek s.pc.toNat ++ s.peek (s.pc.toNat + 1)) = .ldBVx x → s.I.toNat + 2 ≤ 0xFFF →
      ∀ hundreds tens units : Byte, hundreds.toNat = (s.v x).toNat / 100 → tens.toNat = (s.v x).toNat / 10 % 10 →
        units.toNat = (s.v x).toNat % 10 →
        (s.I.toNat = s.pc.toNat + 2 → s.NextStepRuns (hundreds ++ tens)) ∧
        (s.I.toNat + 1 = s.pc.toNat + 2 → s.NextStepRuns (tens ++ units)))

/-- Every step keeps the canonical form of memory: listed bytes at rising addresses below 0x1000, none equal to the reset contents.
That form is the model's (log entry 7). -/
def Obligations.CycleKeepsMemoryCanonical : Prop :=
  ∀ s t : State, s.MemOk → step s = .next t → t.MemOk

/-- R28 (the spec's own inference): pc never passes 0x10FE and every stack entry is at most 0x1000, so pc's wrap is never exercised: every cycle keeps it. -/
def Obligations.CycleKeepsPcBounded : Prop :=
  ∀ s t : State, s.PcOk → step s = .next t → t.PcOk

/-- The host breaks neither invariant: every transaction that gives a state keeps both. The canonical form of memory is the model's
(log entry 7), and the bounds of pc and stack are the spec's own inference R28. -/
def Obligations.TransactionsKeepInvariants : Prop :=
  ∀ (x : Transaction) (s t : State), s.MemOk → s.PcOk → transact x s = .next t → t.MemOk ∧ t.PcOk

/-- Both invariants hold at reset, whatever the parameters. The canonical form of memory is the model's (log entry 7), and the bounds
of pc and stack are the spec's own inference R28. -/
def Obligations.ResetMeetsInvariants : Prop :=
  (∀ p : Params, (State.resetWith p).MemOk ∧ (State.resetWith p).PcOk) ∧ State.reset.MemOk ∧ State.reset.PcOk

/-! ### Encoding (30_encoding.md) -/

/-- R84, with R75: every well-formed instruction's word decodes to it, and its bytes followed by any others decode to it and those
others. -/
def Obligations.DecodeEncodeRoundTrip : Prop :=
  ∀ i : Instr, i.WellFormed → decodeWord (encode i) = i ∧
    ∀ rest : List Byte, decodeBytes (encodeBytes i ++ rest) = .ok (i, rest)

/-- R74, R75, R81, R84: every word decodes to a well-formed instruction, has the selector bits of that instruction's table row,
and agrees with that instruction's own word on every bit but the ignored ones. -/
def Obligations.EveryWordFollowsItsTableRow : Prop :=
  ∀ w : Word, (decodeWord w).WellFormed ∧
    w &&& (decodeWord w).tableMask = (decodeWord w).tableMatch ∧
    (w ^^^ encode (decodeWord w)) &&& ~~~ (decodeWord w).ignoredBits = 0

/-- Words written out from the encoding column of R75 and the examples of R77 and R79, one or more of each family. -/
def Obligations.WrittenOutWordsDecode : Prop :=
  decodeWord 0x0120 = .cls ∧ decodeWord 0x02AE = .ret ∧ decodeWord 0x2210 = .callAddr 0x210 ∧
  decodeWord 0x5125 = .seVxVy 1 2 ∧ decodeWord 0x8127 = .subnVxVy 1 2 ∧ decodeWord 0xC10F = .rndVxByte 1 0x0F ∧
  decodeWord 0xFA33 = .ldBVx 0xA ∧ decodeWord 0xD125 = .drwVxVyN 1 2 5 ∧ decodeWord 0xE10E = .skpVx 1 ∧
  decodeWord 0xF50A = .ldVxK 5 ∧ decodeWord 0x00E1 = .nop0 0x0E1 ∧ decodeWord 0xE1A2 = .nopE 0x1A2

/-! ### Reset and the host's transactions (10_state.md R42, 60_exceptions.md, 70_reset_and_hazards.md) -/

/-- R42, for a machine with any parameters. -/
def Obligations.ResetValues : Prop :=
  ∀ p : Params, let s := State.resetWith p
    (∀ k : Fin 80, s.peek (0x050 + k.val) = p.font[k]) ∧
    (∀ a, a ≤ 0xFFF → (a < 0x050 ∨ 0x09F < a) → s.peek a = 0x00) ∧
    (∀ r, s.v r = 0x00) ∧ s.I = 0x0000 ∧ s.pc = 0x200 ∧ (∀ j : Fin 16, s.stack[j] = 0x0000) ∧ s.sp.val = 0 ∧
    s.DT = 0x00 ∧ s.ST = 0x00 ∧ (∀ k : Fin 16, s.key[k] = false) ∧ (∀ c, c ≤ 2047 → s.cell c = false) ∧
    s.opcode = 0x0000 ∧ s.status = .running

/-- R270: RESET, from any state, Faulted included, gives the state of R42; the model's own parameters and count of free values
stay (log entries 3 and 6), and the host's one load may come again (log entry 25). -/
def Obligations.ResetTransactionRestores : Prop :=
  ∀ s : State, ∃ t, transact .reset s = .next t ∧ t.params = s.params ∧ t.draws = s.draws ∧
    Frame [.params, .draws] (State.resetWith s.params) t

/-- R271, R272, R257: on the reset state a ROM that fits lands at 0x200 and nothing else changes; one that does not fit is refused,
and so is any on another state. The last clause is "once" and "before any cycle": after a load (of an empty or an all-zero ROM
too) or a CYCLE, whatever the host does short of RESET, every load is refused. How the model knows, the field `loadOpen`, is log
entry 25; that the reset state is told whatever `draws` is, log entry 6. -/
def Obligations.LoadRomPlacesBytes : Prop :=
  ∀ (s : State) (rom : List Byte),
    (rom.length ≤ 3584 → s = { State.resetWith s.params with draws := s.draws } →
      ∃ t, transact (.loadRom rom) s = .next t ∧ Frame [.mem, .loadOpen] s t ∧
        (∀ i (_ : i < rom.length), t.peek (0x200 + i) = rom[i]) ∧
        (∀ a, a < 0x200 ∨ 0x200 + rom.length ≤ a → t.peek a = s.peek a)) ∧
    (rom.length > 3584 → transact (.loadRom rom) s = .refused .romTooLarge) ∧
    (rom.length ≤ 3584 → s ≠ { State.resetWith s.params with draws := s.draws } →
      transact (.loadRom rom) s = .refused .loadRomNotAtReset) ∧
    ∀ (x : Transaction) (t : State), (x = .cycle ∨ ∃ first, x = .loadRom first) → transact x s = .next t →
      ∀ (xs : List Transaction) (u : State), Transaction.reset ∉ xs → transactAll xs t = .next u → rom.length ≤ 3584 →
        transact (.loadRom rom) u = .refused .loadRomNotAtReset

/-- R252. It holds of a Faulted core too, which is the model's reading (log entry 21). -/
def Obligations.SetKeyWritesOneKey : Prop :=
  ∀ (s : State) (k : Nibble) (down : Bool), ∃ t, transact (.setKey k down) s = .next t ∧ Frame [.key] s t ∧
    ∀ j : Fin 16, t.key[j] = if j.val = k.toNat then down else s.key[j]

/-- R253. It holds of a Faulted core too, which is the model's reading (log entry 21). -/
def Obligations.TickDecrementsTimers : Prop :=
  ∀ s : State, ∃ t, transact .tick s = .next t ∧ Frame [.DT, .ST] s t ∧
    t.DT.toNat = s.DT.toNat - 1 ∧ t.ST.toNat = s.ST.toNat - 1

/-- R36, R251, R254, R255: what the reads give, and that they change nothing. -/
def Obligations.ReadsReportAndChangeNothing : Prop :=
  ∀ s : State,
    s.readFb.length = 2048 ∧
    (∀ c (h : c < s.readFb.length), s.readFb[c] = if s.cell c = true then 0xFFFFFFFF else 0x00000000) ∧
    s.readSt = s.ST ∧ (s.soundOn = true ↔ s.ST ≠ 0) ∧ s.readStatus = s.status ∧
    ∀ x ∈ [Transaction.readFb, .readSt, .readStatus], transact x s = .next s

/-- R275 (the spec's own inference): a running core whose two bytes at pc are zero, as every word past the ROM is, clears the screen and goes on by two. -/
def Obligations.ZeroedMemoryRunsCls : Prop :=
  ∀ s : State, s.status = .running → s.pc.toNat ≤ 0xFFE → s.peek s.pc.toNat = 0 → s.peek (s.pc.toNat + 1) = 0 →
    ∃ t, step s = .next t ∧ Frame [.pc, .fb, .opcode] s t ∧ t.pc = s.pc + 2 ∧ t.opcode = 0 ∧ ∀ c, t.cell c = false
end

