-- ==== Sys2Proof/Laws/State.lean ====
section
/-! SUPPORT. The small lemmas of State: what each primitive update leaves in each field, and what it does to the reads `v`, `peek`,
`cell` and `pressed`. Each is true by unfolding the one update, so that no later proof unfolds a record update. The value a
register write or a memory write leaves in `V` or `mem` itself is no simp lemma: reads of them are stated in
Sys2Proof/Laws/Ops.lean and Sys2Proof/Laws/Memory.lean through `v` and `peek`. -/

namespace Sys2Proof.Machine

variable (s : State)

/-! ### setV -/

@[simp] theorem State.setV_mem (r : Nibble) (b : Byte) : (s.setV r b).mem = s.mem := rfl
theorem State.setV_V (r : Nibble) (b : Byte) : (s.setV r b).V = s.V.set r.toNat b := rfl
@[simp] theorem State.setV_I (r : Nibble) (b : Byte) : (s.setV r b).I = s.I := rfl
@[simp] theorem State.setV_pc (r : Nibble) (b : Byte) : (s.setV r b).pc = s.pc := rfl
@[simp] theorem State.setV_stack (r : Nibble) (b : Byte) : (s.setV r b).stack = s.stack := rfl
@[simp] theorem State.setV_sp (r : Nibble) (b : Byte) : (s.setV r b).sp = s.sp := rfl
@[simp] theorem State.setV_DT (r : Nibble) (b : Byte) : (s.setV r b).DT = s.DT := rfl
@[simp] theorem State.setV_ST (r : Nibble) (b : Byte) : (s.setV r b).ST = s.ST := rfl
@[simp] theorem State.setV_key (r : Nibble) (b : Byte) : (s.setV r b).key = s.key := rfl
@[simp] theorem State.setV_fb (r : Nibble) (b : Byte) : (s.setV r b).fb = s.fb := rfl
@[simp] theorem State.setV_opcode (r : Nibble) (b : Byte) : (s.setV r b).opcode = s.opcode := rfl
@[simp] theorem State.setV_status (r : Nibble) (b : Byte) : (s.setV r b).status = s.status := rfl
@[simp] theorem State.setV_params (r : Nibble) (b : Byte) : (s.setV r b).params = s.params := rfl
@[simp] theorem State.setV_draws (r : Nibble) (b : Byte) : (s.setV r b).draws = s.draws := rfl
@[simp] theorem State.setV_loadOpen (r : Nibble) (b : Byte) : (s.setV r b).loadOpen = s.loadOpen := rfl
@[simp] theorem State.setV_peek (r : Nibble) (b : Byte) (n : Nat) : (s.setV r b).peek n = s.peek n := rfl
@[simp] theorem State.setV_cell (r : Nibble) (b : Byte) (n : Nat) : (s.setV r b).cell n = s.cell n := rfl
@[simp] theorem State.setV_pressed (r : Nibble) (b : Byte) (n : Nat) : (s.setV r b).pressed n = s.pressed n := rfl

/-! ### setVF -/

@[simp] theorem State.setVF_mem (b : Byte) : (s.setVF b).mem = s.mem := rfl
theorem State.setVF_V (b : Byte) : (s.setVF b).V = s.V.set 15 b := rfl
@[simp] theorem State.setVF_I (b : Byte) : (s.setVF b).I = s.I := rfl
@[simp] theorem State.setVF_pc (b : Byte) : (s.setVF b).pc = s.pc := rfl
@[simp] theorem State.setVF_stack (b : Byte) : (s.setVF b).stack = s.stack := rfl
@[simp] theorem State.setVF_sp (b : Byte) : (s.setVF b).sp = s.sp := rfl
@[simp] theorem State.setVF_DT (b : Byte) : (s.setVF b).DT = s.DT := rfl
@[simp] theorem State.setVF_ST (b : Byte) : (s.setVF b).ST = s.ST := rfl
@[simp] theorem State.setVF_key (b : Byte) : (s.setVF b).key = s.key := rfl
@[simp] theorem State.setVF_fb (b : Byte) : (s.setVF b).fb = s.fb := rfl
@[simp] theorem State.setVF_opcode (b : Byte) : (s.setVF b).opcode = s.opcode := rfl
@[simp] theorem State.setVF_status (b : Byte) : (s.setVF b).status = s.status := rfl
@[simp] theorem State.setVF_params (b : Byte) : (s.setVF b).params = s.params := rfl
@[simp] theorem State.setVF_draws (b : Byte) : (s.setVF b).draws = s.draws := rfl
@[simp] theorem State.setVF_loadOpen (b : Byte) : (s.setVF b).loadOpen = s.loadOpen := rfl
@[simp] theorem State.setVF_peek (b : Byte) (n : Nat) : (s.setVF b).peek n = s.peek n := rfl
@[simp] theorem State.setVF_cell (b : Byte) (n : Nat) : (s.setVF b).cell n = s.cell n := rfl
@[simp] theorem State.setVF_pressed (b : Byte) (n : Nat) : (s.setVF b).pressed n = s.pressed n := rfl

/-! ### setI -/

@[simp] theorem State.setI_mem (w : Word) : (s.setI w).mem = s.mem := rfl
@[simp] theorem State.setI_V (w : Word) : (s.setI w).V = s.V := rfl
@[simp] theorem State.setI_I (w : Word) : (s.setI w).I = w := rfl
@[simp] theorem State.setI_pc (w : Word) : (s.setI w).pc = s.pc := rfl
@[simp] theorem State.setI_stack (w : Word) : (s.setI w).stack = s.stack := rfl
@[simp] theorem State.setI_sp (w : Word) : (s.setI w).sp = s.sp := rfl
@[simp] theorem State.setI_DT (w : Word) : (s.setI w).DT = s.DT := rfl
@[simp] theorem State.setI_ST (w : Word) : (s.setI w).ST = s.ST := rfl
@[simp] theorem State.setI_key (w : Word) : (s.setI w).key = s.key := rfl
@[simp] theorem State.setI_fb (w : Word) : (s.setI w).fb = s.fb := rfl
@[simp] theorem State.setI_opcode (w : Word) : (s.setI w).opcode = s.opcode := rfl
@[simp] theorem State.setI_status (w : Word) : (s.setI w).status = s.status := rfl
@[simp] theorem State.setI_params (w : Word) : (s.setI w).params = s.params := rfl
@[simp] theorem State.setI_draws (w : Word) : (s.setI w).draws = s.draws := rfl
@[simp] theorem State.setI_loadOpen (w : Word) : (s.setI w).loadOpen = s.loadOpen := rfl
@[simp] theorem State.setI_v (w : Word) (q : Nibble) : (s.setI w).v q = s.v q := rfl
@[simp] theorem State.setI_peek (w : Word) (n : Nat) : (s.setI w).peek n = s.peek n := rfl
@[simp] theorem State.setI_cell (w : Word) (n : Nat) : (s.setI w).cell n = s.cell n := rfl
@[simp] theorem State.setI_pressed (w : Word) (n : Nat) : (s.setI w).pressed n = s.pressed n := rfl

/-! ### setDT -/

@[simp] theorem State.setDT_mem (b : Byte) : (s.setDT b).mem = s.mem := rfl
@[simp] theorem State.setDT_V (b : Byte) : (s.setDT b).V = s.V := rfl
@[simp] theorem State.setDT_I (b : Byte) : (s.setDT b).I = s.I := rfl
@[simp] theorem State.setDT_pc (b : Byte) : (s.setDT b).pc = s.pc := rfl
@[simp] theorem State.setDT_stack (b : Byte) : (s.setDT b).stack = s.stack := rfl
@[simp] theorem State.setDT_sp (b : Byte) : (s.setDT b).sp = s.sp := rfl
@[simp] theorem State.setDT_DT (b : Byte) : (s.setDT b).DT = b := rfl
@[simp] theorem State.setDT_ST (b : Byte) : (s.setDT b).ST = s.ST := rfl
@[simp] theorem State.setDT_key (b : Byte) : (s.setDT b).key = s.key := rfl
@[simp] theorem State.setDT_fb (b : Byte) : (s.setDT b).fb = s.fb := rfl
@[simp] theorem State.setDT_opcode (b : Byte) : (s.setDT b).opcode = s.opcode := rfl
@[simp] theorem State.setDT_status (b : Byte) : (s.setDT b).status = s.status := rfl
@[simp] theorem State.setDT_params (b : Byte) : (s.setDT b).params = s.params := rfl
@[simp] theorem State.setDT_draws (b : Byte) : (s.setDT b).draws = s.draws := rfl
@[simp] theorem State.setDT_loadOpen (b : Byte) : (s.setDT b).loadOpen = s.loadOpen := rfl
@[simp] theorem State.setDT_v (b : Byte) (q : Nibble) : (s.setDT b).v q = s.v q := rfl
@[simp] theorem State.setDT_peek (b : Byte) (n : Nat) : (s.setDT b).peek n = s.peek n := rfl
@[simp] theorem State.setDT_cell (b : Byte) (n : Nat) : (s.setDT b).cell n = s.cell n := rfl
@[simp] theorem State.setDT_pressed (b : Byte) (n : Nat) : (s.setDT b).pressed n = s.pressed n := rfl

/-! ### setST -/

@[simp] theorem State.setST_mem (b : Byte) : (s.setST b).mem = s.mem := rfl
@[simp] theorem State.setST_V (b : Byte) : (s.setST b).V = s.V := rfl
@[simp] theorem State.setST_I (b : Byte) : (s.setST b).I = s.I := rfl
@[simp] theorem State.setST_pc (b : Byte) : (s.setST b).pc = s.pc := rfl
@[simp] theorem State.setST_stack (b : Byte) : (s.setST b).stack = s.stack := rfl
@[simp] theorem State.setST_sp (b : Byte) : (s.setST b).sp = s.sp := rfl
@[simp] theorem State.setST_DT (b : Byte) : (s.setST b).DT = s.DT := rfl
@[simp] theorem State.setST_ST (b : Byte) : (s.setST b).ST = b := rfl
@[simp] theorem State.setST_key (b : Byte) : (s.setST b).key = s.key := rfl
@[simp] theorem State.setST_fb (b : Byte) : (s.setST b).fb = s.fb := rfl
@[simp] theorem State.setST_opcode (b : Byte) : (s.setST b).opcode = s.opcode := rfl
@[simp] theorem State.setST_status (b : Byte) : (s.setST b).status = s.status := rfl
@[simp] theorem State.setST_params (b : Byte) : (s.setST b).params = s.params := rfl
@[simp] theorem State.setST_draws (b : Byte) : (s.setST b).draws = s.draws := rfl
@[simp] theorem State.setST_loadOpen (b : Byte) : (s.setST b).loadOpen = s.loadOpen := rfl
@[simp] theorem State.setST_v (b : Byte) (q : Nibble) : (s.setST b).v q = s.v q := rfl
@[simp] theorem State.setST_peek (b : Byte) (n : Nat) : (s.setST b).peek n = s.peek n := rfl
@[simp] theorem State.setST_cell (b : Byte) (n : Nat) : (s.setST b).cell n = s.cell n := rfl
@[simp] theorem State.setST_pressed (b : Byte) (n : Nat) : (s.setST b).pressed n = s.pressed n := rfl

/-! ### advance -/

@[simp] theorem State.advance_mem : (s.advance).mem = s.mem := rfl
@[simp] theorem State.advance_V : (s.advance).V = s.V := rfl
@[simp] theorem State.advance_I : (s.advance).I = s.I := rfl
@[simp] theorem State.advance_pc : (s.advance).pc = s.pc + 2 := rfl
@[simp] theorem State.advance_stack : (s.advance).stack = s.stack := rfl
@[simp] theorem State.advance_sp : (s.advance).sp = s.sp := rfl
@[simp] theorem State.advance_DT : (s.advance).DT = s.DT := rfl
@[simp] theorem State.advance_ST : (s.advance).ST = s.ST := rfl
@[simp] theorem State.advance_key : (s.advance).key = s.key := rfl
@[simp] theorem State.advance_fb : (s.advance).fb = s.fb := rfl
@[simp] theorem State.advance_opcode : (s.advance).opcode = s.opcode := rfl
@[simp] theorem State.advance_status : (s.advance).status = s.status := rfl
@[simp] theorem State.advance_params : (s.advance).params = s.params := rfl
@[simp] theorem State.advance_draws : (s.advance).draws = s.draws := rfl
@[simp] theorem State.advance_loadOpen : (s.advance).loadOpen = s.loadOpen := rfl
@[simp] theorem State.advance_v (q : Nibble) : (s.advance).v q = s.v q := rfl
@[simp] theorem State.advance_peek (n : Nat) : (s.advance).peek n = s.peek n := rfl
@[simp] theorem State.advance_cell (n : Nat) : (s.advance).cell n = s.cell n := rfl
@[simp] theorem State.advance_pressed (n : Nat) : (s.advance).pressed n = s.pressed n := rfl

/-! ### jump -/

@[simp] theorem State.jump_mem (w : Word) : (s.jump w).mem = s.mem := rfl
@[simp] theorem State.jump_V (w : Word) : (s.jump w).V = s.V := rfl
@[simp] theorem State.jump_I (w : Word) : (s.jump w).I = s.I := rfl
@[simp] theorem State.jump_pc (w : Word) : (s.jump w).pc = w := rfl
@[simp] theorem State.jump_stack (w : Word) : (s.jump w).stack = s.stack := rfl
@[simp] theorem State.jump_sp (w : Word) : (s.jump w).sp = s.sp := rfl
@[simp] theorem State.jump_DT (w : Word) : (s.jump w).DT = s.DT := rfl
@[simp] theorem State.jump_ST (w : Word) : (s.jump w).ST = s.ST := rfl
@[simp] theorem State.jump_key (w : Word) : (s.jump w).key = s.key := rfl
@[simp] theorem State.jump_fb (w : Word) : (s.jump w).fb = s.fb := rfl
@[simp] theorem State.jump_opcode (w : Word) : (s.jump w).opcode = s.opcode := rfl
@[simp] theorem State.jump_status (w : Word) : (s.jump w).status = s.status := rfl
@[simp] theorem State.jump_params (w : Word) : (s.jump w).params = s.params := rfl
@[simp] theorem State.jump_draws (w : Word) : (s.jump w).draws = s.draws := rfl
@[simp] theorem State.jump_loadOpen (w : Word) : (s.jump w).loadOpen = s.loadOpen := rfl
@[simp] theorem State.jump_v (w : Word) (q : Nibble) : (s.jump w).v q = s.v q := rfl
@[simp] theorem State.jump_peek (w : Word) (n : Nat) : (s.jump w).peek n = s.peek n := rfl
@[simp] theorem State.jump_cell (w : Word) (n : Nat) : (s.jump w).cell n = s.cell n := rfl
@[simp] theorem State.jump_pressed (w : Word) (n : Nat) : (s.jump w).pressed n = s.pressed n := rfl

/-! ### rewind -/

@[simp] theorem State.rewind_mem : (s.rewind).mem = s.mem := rfl
@[simp] theorem State.rewind_V : (s.rewind).V = s.V := rfl
@[simp] theorem State.rewind_I : (s.rewind).I = s.I := rfl
@[simp] theorem State.rewind_pc : (s.rewind).pc = s.pc - 2 := rfl
@[simp] theorem State.rewind_stack : (s.rewind).stack = s.stack := rfl
@[simp] theorem State.rewind_sp : (s.rewind).sp = s.sp := rfl
@[simp] theorem State.rewind_DT : (s.rewind).DT = s.DT := rfl
@[simp] theorem State.rewind_ST : (s.rewind).ST = s.ST := rfl
@[simp] theorem State.rewind_key : (s.rewind).key = s.key := rfl
@[simp] theorem State.rewind_fb : (s.rewind).fb = s.fb := rfl
@[simp] theorem State.rewind_opcode : (s.rewind).opcode = s.opcode := rfl
@[simp] theorem State.rewind_status : (s.rewind).status = s.status := rfl
@[simp] theorem State.rewind_params : (s.rewind).params = s.params := rfl
@[simp] theorem State.rewind_draws : (s.rewind).draws = s.draws := rfl
@[simp] theorem State.rewind_loadOpen : (s.rewind).loadOpen = s.loadOpen := rfl
@[simp] theorem State.rewind_v (q : Nibble) : (s.rewind).v q = s.v q := rfl
@[simp] theorem State.rewind_peek (n : Nat) : (s.rewind).peek n = s.peek n := rfl
@[simp] theorem State.rewind_cell (n : Nat) : (s.rewind).cell n = s.cell n := rfl
@[simp] theorem State.rewind_pressed (n : Nat) : (s.rewind).pressed n = s.pressed n := rfl

/-! ### poke -/

theorem State.poke_mem (a : Nat) (b : Byte) : (s.poke a b).mem = Memory.write s.params.font s.mem a b := rfl
@[simp] theorem State.poke_V (a : Nat) (b : Byte) : (s.poke a b).V = s.V := rfl
@[simp] theorem State.poke_I (a : Nat) (b : Byte) : (s.poke a b).I = s.I := rfl
@[simp] theorem State.poke_pc (a : Nat) (b : Byte) : (s.poke a b).pc = s.pc := rfl
@[simp] theorem State.poke_stack (a : Nat) (b : Byte) : (s.poke a b).stack = s.stack := rfl
@[simp] theorem State.poke_sp (a : Nat) (b : Byte) : (s.poke a b).sp = s.sp := rfl
@[simp] theorem State.poke_DT (a : Nat) (b : Byte) : (s.poke a b).DT = s.DT := rfl
@[simp] theorem State.poke_ST (a : Nat) (b : Byte) : (s.poke a b).ST = s.ST := rfl
@[simp] theorem State.poke_key (a : Nat) (b : Byte) : (s.poke a b).key = s.key := rfl
@[simp] theorem State.poke_fb (a : Nat) (b : Byte) : (s.poke a b).fb = s.fb := rfl
@[simp] theorem State.poke_opcode (a : Nat) (b : Byte) : (s.poke a b).opcode = s.opcode := rfl
@[simp] theorem State.poke_status (a : Nat) (b : Byte) : (s.poke a b).status = s.status := rfl
@[simp] theorem State.poke_params (a : Nat) (b : Byte) : (s.poke a b).params = s.params := rfl
@[simp] theorem State.poke_draws (a : Nat) (b : Byte) : (s.poke a b).draws = s.draws := rfl
@[simp] theorem State.poke_loadOpen (a : Nat) (b : Byte) : (s.poke a b).loadOpen = s.loadOpen := rfl
@[simp] theorem State.poke_v (a : Nat) (b : Byte) (q : Nibble) : (s.poke a b).v q = s.v q := rfl
@[simp] theorem State.poke_cell (a : Nat) (b : Byte) (n : Nat) : (s.poke a b).cell n = s.cell n := rfl
@[simp] theorem State.poke_pressed (a : Nat) (b : Byte) (n : Nat) : (s.poke a b).pressed n = s.pressed n := rfl

/-! ### flipCell -/

@[simp] theorem State.flipCell_mem (c : Nat) : (s.flipCell c).mem = s.mem := rfl
@[simp] theorem State.flipCell_V (c : Nat) : (s.flipCell c).V = s.V := rfl
@[simp] theorem State.flipCell_I (c : Nat) : (s.flipCell c).I = s.I := rfl
@[simp] theorem State.flipCell_pc (c : Nat) : (s.flipCell c).pc = s.pc := rfl
@[simp] theorem State.flipCell_stack (c : Nat) : (s.flipCell c).stack = s.stack := rfl
@[simp] theorem State.flipCell_sp (c : Nat) : (s.flipCell c).sp = s.sp := rfl
@[simp] theorem State.flipCell_DT (c : Nat) : (s.flipCell c).DT = s.DT := rfl
@[simp] theorem State.flipCell_ST (c : Nat) : (s.flipCell c).ST = s.ST := rfl
@[simp] theorem State.flipCell_key (c : Nat) : (s.flipCell c).key = s.key := rfl
theorem State.flipCell_fb (c : Nat) : (s.flipCell c).fb = s.fb ^^^ BitVec.twoPow 2048 c := rfl
@[simp] theorem State.flipCell_opcode (c : Nat) : (s.flipCell c).opcode = s.opcode := rfl
@[simp] theorem State.flipCell_status (c : Nat) : (s.flipCell c).status = s.status := rfl
@[simp] theorem State.flipCell_params (c : Nat) : (s.flipCell c).params = s.params := rfl
@[simp] theorem State.flipCell_draws (c : Nat) : (s.flipCell c).draws = s.draws := rfl
@[simp] theorem State.flipCell_loadOpen (c : Nat) : (s.flipCell c).loadOpen = s.loadOpen := rfl
@[simp] theorem State.flipCell_v (c : Nat) (q : Nibble) : (s.flipCell c).v q = s.v q := rfl
@[simp] theorem State.flipCell_peek (c : Nat) (n : Nat) : (s.flipCell c).peek n = s.peek n := rfl
@[simp] theorem State.flipCell_pressed (c : Nat) (n : Nat) : (s.flipCell c).pressed n = s.pressed n := rfl

/-! ### clearFb -/

@[simp] theorem State.clearFb_mem : (s.clearFb).mem = s.mem := rfl
@[simp] theorem State.clearFb_V : (s.clearFb).V = s.V := rfl
@[simp] theorem State.clearFb_I : (s.clearFb).I = s.I := rfl
@[simp] theorem State.clearFb_pc : (s.clearFb).pc = s.pc := rfl
@[simp] theorem State.clearFb_stack : (s.clearFb).stack = s.stack := rfl
@[simp] theorem State.clearFb_sp : (s.clearFb).sp = s.sp := rfl
@[simp] theorem State.clearFb_DT : (s.clearFb).DT = s.DT := rfl
@[simp] theorem State.clearFb_ST : (s.clearFb).ST = s.ST := rfl
@[simp] theorem State.clearFb_key : (s.clearFb).key = s.key := rfl
theorem State.clearFb_fb : (s.clearFb).fb = 0 := rfl
@[simp] theorem State.clearFb_opcode : (s.clearFb).opcode = s.opcode := rfl
@[simp] theorem State.clearFb_status : (s.clearFb).status = s.status := rfl
@[simp] theorem State.clearFb_params : (s.clearFb).params = s.params := rfl
@[simp] theorem State.clearFb_draws : (s.clearFb).draws = s.draws := rfl
@[simp] theorem State.clearFb_loadOpen : (s.clearFb).loadOpen = s.loadOpen := rfl
@[simp] theorem State.clearFb_v (q : Nibble) : (s.clearFb).v q = s.v q := rfl
@[simp] theorem State.clearFb_peek (n : Nat) : (s.clearFb).peek n = s.peek n := rfl
@[simp] theorem State.clearFb_pressed (n : Nat) : (s.clearFb).pressed n = s.pressed n := rfl

/-! ### drawn -/

@[simp] theorem State.drawn_mem : (s.drawn).mem = s.mem := rfl
@[simp] theorem State.drawn_V : (s.drawn).V = s.V := rfl
@[simp] theorem State.drawn_I : (s.drawn).I = s.I := rfl
@[simp] theorem State.drawn_pc : (s.drawn).pc = s.pc := rfl
@[simp] theorem State.drawn_stack : (s.drawn).stack = s.stack := rfl
@[simp] theorem State.drawn_sp : (s.drawn).sp = s.sp := rfl
@[simp] theorem State.drawn_DT : (s.drawn).DT = s.DT := rfl
@[simp] theorem State.drawn_ST : (s.drawn).ST = s.ST := rfl
@[simp] theorem State.drawn_key : (s.drawn).key = s.key := rfl
@[simp] theorem State.drawn_fb : (s.drawn).fb = s.fb := rfl
@[simp] theorem State.drawn_opcode : (s.drawn).opcode = s.opcode := rfl
@[simp] theorem State.drawn_status : (s.drawn).status = s.status := rfl
@[simp] theorem State.drawn_params : (s.drawn).params = s.params := rfl
@[simp] theorem State.drawn_draws : (s.drawn).draws = s.draws + 1 := rfl
@[simp] theorem State.drawn_loadOpen : (s.drawn).loadOpen = s.loadOpen := rfl
@[simp] theorem State.drawn_v (q : Nibble) : (s.drawn).v q = s.v q := rfl
@[simp] theorem State.drawn_peek (n : Nat) : (s.drawn).peek n = s.peek n := rfl
@[simp] theorem State.drawn_cell (n : Nat) : (s.drawn).cell n = s.cell n := rfl
@[simp] theorem State.drawn_pressed (n : Nat) : (s.drawn).pressed n = s.pressed n := rfl

/-! ### raiseFault -/

@[simp] theorem State.raiseFault_mem (c : FaultCode) : (s.raiseFault c).mem = s.mem := rfl
@[simp] theorem State.raiseFault_V (c : FaultCode) : (s.raiseFault c).V = s.V := rfl
@[simp] theorem State.raiseFault_I (c : FaultCode) : (s.raiseFault c).I = s.I := rfl
@[simp] theorem State.raiseFault_pc (c : FaultCode) : (s.raiseFault c).pc = s.pc := rfl
@[simp] theorem State.raiseFault_stack (c : FaultCode) : (s.raiseFault c).stack = s.stack := rfl
@[simp] theorem State.raiseFault_sp (c : FaultCode) : (s.raiseFault c).sp = s.sp := rfl
@[simp] theorem State.raiseFault_DT (c : FaultCode) : (s.raiseFault c).DT = s.DT := rfl
@[simp] theorem State.raiseFault_ST (c : FaultCode) : (s.raiseFault c).ST = s.ST := rfl
@[simp] theorem State.raiseFault_key (c : FaultCode) : (s.raiseFault c).key = s.key := rfl
@[simp] theorem State.raiseFault_fb (c : FaultCode) : (s.raiseFault c).fb = s.fb := rfl
@[simp] theorem State.raiseFault_opcode (c : FaultCode) : (s.raiseFault c).opcode = s.opcode := rfl
@[simp] theorem State.raiseFault_status (c : FaultCode) : (s.raiseFault c).status = .faulted c s.pc := rfl
@[simp] theorem State.raiseFault_params (c : FaultCode) : (s.raiseFault c).params = s.params := rfl
@[simp] theorem State.raiseFault_draws (c : FaultCode) : (s.raiseFault c).draws = s.draws := rfl
@[simp] theorem State.raiseFault_loadOpen (c : FaultCode) : (s.raiseFault c).loadOpen = s.loadOpen := rfl
@[simp] theorem State.raiseFault_v (c : FaultCode) (q : Nibble) : (s.raiseFault c).v q = s.v q := rfl
@[simp] theorem State.raiseFault_peek (c : FaultCode) (n : Nat) : (s.raiseFault c).peek n = s.peek n := rfl
@[simp] theorem State.raiseFault_cell (c : FaultCode) (n : Nat) : (s.raiseFault c).cell n = s.cell n := rfl
@[simp] theorem State.raiseFault_pressed (c : FaultCode) (n : Nat) : (s.raiseFault c).pressed n = s.pressed n := rfl

/-! ### setKey -/

@[simp] theorem State.setKey_mem (k : Nibble) (down : Bool) : (s.setKey k down).mem = s.mem := rfl
@[simp] theorem State.setKey_V (k : Nibble) (down : Bool) : (s.setKey k down).V = s.V := rfl
@[simp] theorem State.setKey_I (k : Nibble) (down : Bool) : (s.setKey k down).I = s.I := rfl
@[simp] theorem State.setKey_pc (k : Nibble) (down : Bool) : (s.setKey k down).pc = s.pc := rfl
@[simp] theorem State.setKey_stack (k : Nibble) (down : Bool) : (s.setKey k down).stack = s.stack := rfl
@[simp] theorem State.setKey_sp (k : Nibble) (down : Bool) : (s.setKey k down).sp = s.sp := rfl
@[simp] theorem State.setKey_DT (k : Nibble) (down : Bool) : (s.setKey k down).DT = s.DT := rfl
@[simp] theorem State.setKey_ST (k : Nibble) (down : Bool) : (s.setKey k down).ST = s.ST := rfl
theorem State.setKey_key (k : Nibble) (down : Bool) : (s.setKey k down).key = s.key.set k.toNat down := rfl
@[simp] theorem State.setKey_fb (k : Nibble) (down : Bool) : (s.setKey k down).fb = s.fb := rfl
@[simp] theorem State.setKey_opcode (k : Nibble) (down : Bool) : (s.setKey k down).opcode = s.opcode := rfl
@[simp] theorem State.setKey_status (k : Nibble) (down : Bool) : (s.setKey k down).status = s.status := rfl
@[simp] theorem State.setKey_params (k : Nibble) (down : Bool) : (s.setKey k down).params = s.params := rfl
@[simp] theorem State.setKey_draws (k : Nibble) (down : Bool) : (s.setKey k down).draws = s.draws := rfl
@[simp] theorem State.setKey_loadOpen (k : Nibble) (down : Bool) : (s.setKey k down).loadOpen = s.loadOpen := rfl
@[simp] theorem State.setKey_v (k : Nibble) (down : Bool) (q : Nibble) : (s.setKey k down).v q = s.v q := rfl
@[simp] theorem State.setKey_peek (k : Nibble) (down : Bool) (n : Nat) : (s.setKey k down).peek n = s.peek n := rfl
@[simp] theorem State.setKey_cell (k : Nibble) (down : Bool) (n : Nat) : (s.setKey k down).cell n = s.cell n := rfl

/-! ### closeLoad -/

@[simp] theorem State.closeLoad_mem : (s.closeLoad).mem = s.mem := rfl
@[simp] theorem State.closeLoad_V : (s.closeLoad).V = s.V := rfl
@[simp] theorem State.closeLoad_I : (s.closeLoad).I = s.I := rfl
@[simp] theorem State.closeLoad_pc : (s.closeLoad).pc = s.pc := rfl
@[simp] theorem State.closeLoad_stack : (s.closeLoad).stack = s.stack := rfl
@[simp] theorem State.closeLoad_sp : (s.closeLoad).sp = s.sp := rfl
@[simp] theorem State.closeLoad_DT : (s.closeLoad).DT = s.DT := rfl
@[simp] theorem State.closeLoad_ST : (s.closeLoad).ST = s.ST := rfl
@[simp] theorem State.closeLoad_key : (s.closeLoad).key = s.key := rfl
@[simp] theorem State.closeLoad_fb : (s.closeLoad).fb = s.fb := rfl
@[simp] theorem State.closeLoad_opcode : (s.closeLoad).opcode = s.opcode := rfl
@[simp] theorem State.closeLoad_status : (s.closeLoad).status = s.status := rfl
@[simp] theorem State.closeLoad_params : (s.closeLoad).params = s.params := rfl
@[simp] theorem State.closeLoad_draws : (s.closeLoad).draws = s.draws := rfl
@[simp] theorem State.closeLoad_loadOpen : (s.closeLoad).loadOpen = false := rfl
@[simp] theorem State.closeLoad_v (q : Nibble) : (s.closeLoad).v q = s.v q := rfl
@[simp] theorem State.closeLoad_peek (n : Nat) : (s.closeLoad).peek n = s.peek n := rfl
@[simp] theorem State.closeLoad_cell (n : Nat) : (s.closeLoad).cell n = s.cell n := rfl
@[simp] theorem State.closeLoad_pressed (n : Nat) : (s.closeLoad).pressed n = s.pressed n := rfl

/-! ### tick -/

@[simp] theorem State.tick_mem : (s.tick).mem = s.mem := rfl
@[simp] theorem State.tick_V : (s.tick).V = s.V := rfl
@[simp] theorem State.tick_I : (s.tick).I = s.I := rfl
@[simp] theorem State.tick_pc : (s.tick).pc = s.pc := rfl
@[simp] theorem State.tick_stack : (s.tick).stack = s.stack := rfl
@[simp] theorem State.tick_sp : (s.tick).sp = s.sp := rfl
@[simp] theorem State.tick_DT : (s.tick).DT = tickTimer s.DT := rfl
@[simp] theorem State.tick_ST : (s.tick).ST = tickTimer s.ST := rfl
@[simp] theorem State.tick_key : (s.tick).key = s.key := rfl
@[simp] theorem State.tick_fb : (s.tick).fb = s.fb := rfl
@[simp] theorem State.tick_opcode : (s.tick).opcode = s.opcode := rfl
@[simp] theorem State.tick_status : (s.tick).status = s.status := rfl
@[simp] theorem State.tick_params : (s.tick).params = s.params := rfl
@[simp] theorem State.tick_draws : (s.tick).draws = s.draws := rfl
@[simp] theorem State.tick_loadOpen : (s.tick).loadOpen = s.loadOpen := rfl
@[simp] theorem State.tick_v (q : Nibble) : (s.tick).v q = s.v q := rfl
@[simp] theorem State.tick_peek (n : Nat) : (s.tick).peek n = s.peek n := rfl
@[simp] theorem State.tick_cell (n : Nat) : (s.tick).cell n = s.cell n := rfl
@[simp] theorem State.tick_pressed (n : Nat) : (s.tick).pressed n = s.pressed n := rfl

end Sys2Proof.Machine
end

