-- ==== Sys2Proof/Laws/Memory.lean ====
section
/-! SUPPORT. Memory: reads after writes, and every memory operation keeps the canonical form. -/

namespace Sys2Proof.Machine

variable {font : Vector Byte 80}

/-- The reset contents in the font region (R42). -/
theorem resetByte_font (k : Fin 80) : resetByte font (fontBase + k.val) = font[k] := by
  simp [resetByte, Vector.getD]

/-- The reset contents outside the font region (R42). -/
theorem resetByte_zero {a : Nat} (h : a < fontBase ∨ fontBase + 80 ≤ a) : resetByte font a = 0 := by
  unfold resetByte
  split
  · simp only [Vector.getD, Array.getD]; rw [dif_neg (by simp; omega)]
  · rfl

theorem Memory.read_cons_self (a : Nat) (v : Byte) (rest : Memory) (h : Memory.read font rest a = resetByte font a) :
    Memory.read font (Memory.cons font a v rest) a = v := by
  unfold Memory.cons
  split
  · rw [h]; exact (‹v = _›).symm
  · simp [Memory.read]

theorem Memory.read_cons_other {a b : Nat} (hab : b ≠ a) (v : Byte) (rest : Memory) :
    Memory.read font (Memory.cons font a v rest) b = Memory.read font rest b := by
  unfold Memory.cons
  split
  · rfl
  · simp [Memory.read, hab]

/-- A write leaves every other byte alone, in any list at all. -/
theorem Memory.read_write_other {a b : Nat} (hab : b ≠ a) (v : Byte) (m : Memory) :
    Memory.read font (Memory.write font m a v) b = Memory.read font m b := by
  induction m with
  | nil => exact Memory.read_cons_other hab v []
  | cons cell rest ih =>
    obtain ⟨c, u⟩ := cell
    simp only [Memory.write]
    split
    · exact Memory.read_cons_other hab v _
    · split
      · subst a
        rw [Memory.read_cons_other hab]
        simp [Memory.read, hab]
      · simp only [Memory.read, ih]

/-- Below the first address a canonical list may hold, every byte reads as at reset. -/
theorem Memory.read_below {lo a : Nat} {m : Memory} (h : Memory.wfFrom font lo m = true) (ha : a < lo) :
    Memory.read font m a = resetByte font a := by
  induction m generalizing lo with
  | nil => rfl
  | cons cell rest ih =>
    obtain ⟨c, u⟩ := cell
    simp only [Memory.wfFrom, Bool.and_eq_true, decide_eq_true_eq] at h
    have hne : a ≠ c := by omega
    simp only [Memory.read, hne, if_false]
    exact ih h.2 (by omega)

theorem Memory.wfFrom_mono {lo lo' : Nat} {m : Memory} (h : Memory.wfFrom font lo m = true) (hl : lo' ≤ lo) :
    Memory.wfFrom font lo' m = true := by
  cases m with
  | nil => rfl
  | cons cell rest =>
    simp only [Memory.wfFrom, Bool.and_eq_true, decide_eq_true_eq] at h ⊢
    exact ⟨⟨⟨by omega, h.1.1.2⟩, h.1.2⟩, h.2⟩

/-- A write is read back, in a canonical list. -/
theorem Memory.read_write_self {lo a : Nat} {m : Memory} (h : Memory.wfFrom font lo m = true) (v : Byte) :
    Memory.read font (Memory.write font m a v) a = v := by
  induction m generalizing lo with
  | nil => exact Memory.read_cons_self a v [] rfl
  | cons cell rest ih =>
    obtain ⟨c, u⟩ := cell
    simp only [Memory.wfFrom, Bool.and_eq_true, decide_eq_true_eq] at h
    simp only [Memory.write]
    split
    · refine Memory.read_cons_self a v _ ?_
      have hne : a ≠ c := by omega
      simp only [Memory.read, hne, if_false]
      exact Memory.read_below h.2 (by omega)
    · split
      · subst a
        exact Memory.read_cons_self c v rest (Memory.read_below h.2 (by omega))
      · have hne : a ≠ c := by omega
        simp only [Memory.read, hne, if_false]
        exact ih h.2

theorem Memory.wfFrom_cons {lo a : Nat} {rest : Memory} (hlo : lo ≤ a) (ha : a < memSize)
    (h : Memory.wfFrom font (a + 1) rest = true) (v : Byte) :
    Memory.wfFrom font lo (Memory.cons font a v rest) = true := by
  unfold Memory.cons
  split
  · exact Memory.wfFrom_mono h (by omega)
  · simp [Memory.wfFrom, *]

/-- A write inside memory keeps the canonical form. -/
theorem Memory.wfFrom_write {lo a : Nat} {m : Memory} (h : Memory.wfFrom font lo m = true) (hlo : lo ≤ a)
    (ha : a < memSize) (v : Byte) : Memory.wfFrom font lo (Memory.write font m a v) = true := by
  induction m generalizing lo with
  | nil => exact Memory.wfFrom_cons hlo ha rfl v
  | cons cell rest ih =>
    obtain ⟨c, u⟩ := cell
    have h' := h
    simp only [Memory.wfFrom, Bool.and_eq_true, decide_eq_true_eq] at h
    simp only [Memory.write]
    split
    · refine Memory.wfFrom_cons hlo ha ?_ v
      simp only [Memory.wfFrom, Bool.and_eq_true, decide_eq_true_eq]
      exact ⟨⟨⟨by omega, h.1.1.2⟩, h.1.2⟩, h.2⟩
    · split
      · subst a
        exact Memory.wfFrom_cons hlo ha h.2 v
      · simp only [Memory.wfFrom, Bool.and_eq_true, decide_eq_true_eq]
        exact ⟨⟨⟨h.1.1.1, h.1.1.2⟩, h.1.2⟩, ih h.2 (by omega)⟩

variable {s : State}

theorem State.peek_poke_other {a b : Nat} (h : b ≠ a) (v : Byte) : (s.poke a v).peek b = s.peek b :=
  Memory.read_write_other h v s.mem

theorem State.peek_poke_self (h : s.MemOk) (a : Nat) (v : Byte) : (s.poke a v).peek a = v :=
  Memory.read_write_self (lo := 0) h v

theorem State.memOk_poke (h : s.MemOk) {a : Nat} (ha : a < memSize) (v : Byte) : (s.poke a v).MemOk :=
  Memory.wfFrom_write (lo := 0) h (by omega) ha v

/-- A block write changes no field but `mem`. -/
theorem State.pokes_eq (s : State) (a : Nat) (bs : List Byte) : s.pokes a bs = { s with mem := (s.pokes a bs).mem } := by
  induction bs generalizing s a with
  | nil => rfl
  | cons b bs ih => simp only [State.pokes]; rw [ih]; simp [State.poke]

/-- A block write leaves every byte outside the block alone. -/
theorem State.peek_pokes_outside {a b : Nat} {bs : List Byte} (h : b < a ∨ a + bs.length ≤ b) :
    (s.pokes a bs).peek b = s.peek b := by
  induction bs generalizing s a with
  | nil => rfl
  | cons v bs ih =>
    simp only [List.length_cons] at h
    simp only [State.pokes]
    rw [ih (by omega), State.peek_poke_other (by omega)]

/-- A block write inside memory keeps the canonical form. -/
theorem State.memOk_pokes {a : Nat} {bs : List Byte} (h : s.MemOk) (ha : bs.length = 0 ∨ a + bs.length ≤ memSize) :
    (s.pokes a bs).MemOk := by
  induction bs generalizing s a with
  | nil => exact h
  | cons v bs ih =>
    simp only [List.length_cons] at ha
    exact ih (State.memOk_poke h (by omega) v) (by omega)

/-- A block write inside memory is read back, byte by byte. -/
theorem State.peek_pokes_inside {a : Nat} {bs : List Byte} (h : s.MemOk) (ha : bs.length = 0 ∨ a + bs.length ≤ memSize)
    (i : Nat) (hi : i < bs.length) : (s.pokes a bs).peek (a + i) = bs[i] := by
  induction bs generalizing s a i with
  | nil => simp at hi
  | cons v bs ih =>
    simp only [List.length_cons] at ha hi
    simp only [State.pokes]
    cases i with
    | zero =>
      rw [State.peek_pokes_outside (by omega)]
      exact State.peek_poke_self h a v
    | succ i =>
      have := ih (s := s.poke a v) (a := a + 1) (State.memOk_poke h (by omega) v) (by omega) i (by omega)
      simpa [Nat.add_assoc, Nat.add_comm 1 i] using this

theorem State.length_peeks (s : State) (a n : Nat) : (s.peeks a n).length = n := by
  induction n generalizing a with
  | zero => rfl
  | succ n ih => simp [State.peeks, ih]

theorem State.getElem_peeks (s : State) (a n i : Nat) (h : i < (s.peeks a n).length) : (s.peeks a n)[i] = s.peek (a + i) := by
  induction n generalizing a i with
  | zero => simp [State.peeks] at h
  | succ n ih =>
    cases i with
    | zero => rfl
    | succ i =>
      simp only [State.peeks, List.getElem_cons_succ]
      rw [ih]; congr 1; omega

/-- What `memRead` can answer. -/
theorem State.memRead_cases (s : State) (a n : Nat) :
    ((n = 0 ∨ a + n ≤ memSize) ∧ s.memRead a n = .ok (s.peeks a n)) ∨
    (n ≠ 0 ∧ a + n > memSize ∧ s.memRead a n = .error .memOutOfRange) := by
  by_cases h : n = 0 ∨ a + n ≤ memSize
  · exact .inl ⟨h, by simp [State.memRead, inMemory, h]⟩
  · exact .inr ⟨by tauto, by omega, by simp [State.memRead, inMemory, h]⟩

/-- What `memWrite` can answer. -/
theorem State.memWrite_cases (s : State) (a : Nat) (bs : List Byte) :
    ((bs.length = 0 ∨ a + bs.length ≤ memSize) ∧ s.memWrite a bs = .ok (s.pokes a bs)) ∨
    (bs.length ≠ 0 ∧ a + bs.length > memSize ∧ s.memWrite a bs = .error .memOutOfRange) := by
  by_cases h : bs.length = 0 ∨ a + bs.length ≤ memSize
  · exact .inl ⟨h, by simp only [State.memWrite, inMemory, h, decide_true, if_true]⟩
  · exact .inr ⟨by tauto, by omega, by simp only [State.memWrite, inMemory, h, decide_false]; rfl⟩

end Sys2Proof.Machine
end

