-- ==== Sys2Proof/Laws/Ops.lean ====
section
/-! SUPPORT. One lemma for each shared operation that says once everything it can do; proofs cite these and do not unfold the
operation again. -/

namespace Sys2Proof.Machine

variable (s : State)

/-! ### Registers -/

/-- A register write is read back, and changes no other register (R22). -/
theorem State.v_setV (x : Nibble) (b : Byte) (r : Nibble) : (s.setV x b).v r = if r = x then b else s.v r := by
  simp only [State.v, State.setV, Vector.getElem_set]
  by_cases h : r = x
  · simp [h]
  · have : x.toNat ≠ r.toNat := fun h' => h (BitVec.eq_of_toNat_eq h'.symm)
    simp [h, this]

theorem State.v_setVF (b : Byte) (r : Nibble) : (s.setVF b).v r = if r = 0xF then b else s.v r :=
  State.v_setV s 0xF b r

/-- The flag first, then the result over the registers with the flag in them (R14). -/
theorem State.v_flagThen (flag : Byte) (x : Nibble) (f : State → Byte) (r : Nibble) :
    (s.flagThen flag x f).v r = if r = x then f (s.setVF flag) else if r = 0xF then flag else s.v r := by
  simp only [State.flagThen, State.v_setV, State.v_setVF]

/-- Two states that differ in V alone. -/
theorem State.flagThen_eq (flag : Byte) (x : Nibble) (f : State → Byte) :
    s.flagThen flag x f = { s with V := (s.flagThen flag x f).V } := rfl

theorem State.rnd_eq (r : Byte) (x : Nibble) (kk : Byte) : s.rnd r x kk = s.setV x (r &&& kk) := rfl

theorem State.collideIf_eq (c : Bool) : s.collideIf c = { s with V := (s.collideIf c).V } := by cases c <;> rfl

theorem State.v_collideIf (c : Bool) (r : Nibble) :
    (s.collideIf c).v r = if c = true ∧ r = 0xF then 1 else s.v r := by
  cases c <;> simp [State.collideIf, State.v_setVF]

/-- A register block load writes V alone. -/
theorem State.loadRegs_eq (k : Nat) (bs : List Byte) : s.loadRegs k bs = { s with V := (s.loadRegs k bs).V } := by
  induction bs generalizing s k with
  | nil => rfl
  | cons b bs ih => simp only [State.loadRegs]; rw [ih]; simp [State.setV]

/-- A block load writes the registers from `k` on with the bytes, and no other (R178). -/
theorem State.v_loadRegs (k : Nat) (bs : List Byte) (h : k + bs.length ≤ 16) (r : Nibble) :
    (s.loadRegs k bs).v r =
      if hr : k ≤ r.toNat ∧ r.toNat < k + bs.length then bs[r.toNat - k]'(by omega) else s.v r := by
  induction bs generalizing s k with
  | nil => simp [State.loadRegs]
  | cons b bs ih =>
    simp only [List.length_cons] at h
    have hk : (BitVec.ofNat 4 k).toNat = k := by simp; omega
    simp only [State.loadRegs]
    rw [ih _ _ (by omega), State.v_setV]
    by_cases hr : r = BitVec.ofNat 4 k
    · have : r.toNat = k := by rw [hr, hk]
      simp [hr, hk]
    · have hne : r.toNat ≠ k := fun h' => hr (BitVec.eq_of_toNat_eq (by rw [hk, h']))
      by_cases hin : k + 1 ≤ r.toNat ∧ r.toNat < k + 1 + bs.length
      · have h2 : k ≤ r.toNat ∧ r.toNat < k + (bs.length + 1) := by omega
        simp only [hin, and_self, dif_pos, List.length_cons, h2]
        rw [List.getElem_cons]
        have : r.toNat - k ≠ 0 := by omega
        simp only [this, dif_neg, not_false_eq_true]
        congr 1
      · have h2 : ¬ (k ≤ r.toNat ∧ r.toNat < k + (bs.length + 1)) := by omega
        rw [dif_neg hin, if_neg hr, dif_neg (by simpa only [List.length_cons] using h2)]

theorem State.length_regBlock (x : Nibble) : (s.regBlock x).length = x.toNat + 1 := by
  have := x.isLt
  simp [State.regBlock]; omega

theorem State.getElem_regBlock (x : Nibble) (i : Nat) (h : i < (s.regBlock x).length) :
    (s.regBlock x)[i] = s.v (BitVec.ofNat 4 i) := by
  have hl := State.length_regBlock s x
  have := x.isLt
  have hi : i % 16 = i := Nat.mod_eq_of_lt (by omega)
  simp [State.regBlock, State.v, hi]

/-! ### Program counter -/

theorem State.skipIf_eq (c : Bool) : s.skipIf c = { s with pc := (s.skipIf c).pc } := by cases c <;> rfl

theorem State.skipIf_pc (c : Bool) : (s.skipIf c).pc = if c = true then s.pc + 2 else s.pc := by cases c <;> rfl

theorem advance_rewind (w : Word) : w + 2 - 2 = w := by rw [BitVec.add_sub_cancel]

/-! ### Stack -/

/-- CALL's push below the limit (R122). -/
theorem State.call_of_lt (w : Word) (h : s.sp.val < 16) : s.call w =
    .ok { s with stack := s.stack.set s.sp.val s.pc, sp := ⟨s.sp.val + 1, by omega⟩, pc := w } := by
  simp only [State.call, h, dif_pos]

/-- CALL's push on a full stack (R122). -/
theorem State.call_of_full (w : Word) (h : s.sp.val = 16) : s.call w = .error .stackOverflow := by
  simp [State.call, h]

/-- RET's pop (R120). -/
theorem State.ret_of_succ {k : Nat} (h : s.sp.val = k + 1) (hk : k < 16) :
    s.ret = .ok { s with sp := ⟨k, by omega⟩, pc := s.stack[k] } := by
  simp [State.ret, h]

/-- RET's pop on an empty stack (R120). -/
theorem State.ret_of_empty (h : s.sp.val = 0) : s.ret = .error .stackUnderflow := by
  simp [State.ret, h]

/-- sp is the one or the other: it counts 0 to 16 entries (R31). -/
theorem State.sp_cases : s.sp.val = 0 ∨ ∃ k, s.sp.val = k + 1 ∧ k < 16 := by
  have := s.sp.isLt
  cases h : s.sp.val with
  | zero => exact .inl rfl
  | succ k => exact .inr ⟨k, rfl, by omega⟩

/-! ### Framebuffer -/

theorem State.cell_clearFb (c : Nat) : s.clearFb.cell c = false := by simp [State.cell, State.clearFb]

theorem State.cell_flipCell (d c : Nat) : (s.flipCell d).cell c = (s.cell c ^^ decide (c = d ∧ c < 2048)) := by
  simp only [State.cell, State.flipCell, BitVec.getLsbD_xor, BitVec.getLsbD_twoPow]
  congr 1
  by_cases h : c = d <;> by_cases h2 : c < 2048 <;> simp_all [eq_comm]

theorem State.drawCell_eq (c : Nat) : s.drawCell c = { s with V := (s.drawCell c).V, fb := (s.drawCell c).fb } := by
  simp only [State.drawCell]
  rw [State.collideIf_eq]
  rfl

/-- Drawing writes V and fb alone. -/
theorem State.drawCells_eq (cs : List Nat) :
    s.drawCells cs = { s with V := (s.drawCells cs).V, fb := (s.drawCells cs).fb } := by
  induction cs generalizing s with
  | nil => rfl
  | cons c cs ih => simp only [State.drawCells]; rw [ih, State.drawCell_eq]

theorem State.cell_collideIf (b : Bool) (c : Nat) : (s.collideIf b).cell c = s.cell c := by cases b <;> rfl

theorem State.cell_drawCell (d c : Nat) : (s.drawCell d).cell c = (s.cell c ^^ decide (c = d ∧ c < 2048)) := by
  rw [State.drawCell, State.cell_flipCell, State.cell_collideIf]

/-- Drawing distinct cells flips exactly those (R192). -/
theorem State.cell_drawCells (cs : List Nat) (hd : cs.Nodup) (hb : ∀ c ∈ cs, c ≤ 2047) (c : Nat) :
    (s.drawCells cs).cell c = (s.cell c ^^ decide (c ∈ cs)) := by
  induction cs generalizing s with
  | nil => simp [State.drawCells]
  | cons d cs ih =>
    rw [List.nodup_cons] at hd
    simp only [State.drawCells]
    rw [ih _ hd.2 fun c hc => hb c (List.mem_cons_of_mem _ hc), State.cell_drawCell]
    have hdb := hb d List.mem_cons_self
    by_cases h : c = d
    · subst h
      have : c < 2048 := by omega
      simp [hd.1, this]
    · simp [h]

/-- Drawing distinct cells makes VF 1 when one of them was on, and leaves every register else (R192). -/
theorem State.v_drawCells (cs : List Nat) (hd : cs.Nodup) (r : Nibble) :
    (s.drawCells cs).v r = if r = 0xF ∧ ∃ c ∈ cs, s.cell c = true then 1 else s.v r := by
  induction cs generalizing s with
  | nil => simp [State.drawCells]
  | cons d cs ih =>
    rw [List.nodup_cons] at hd
    simp only [State.drawCells]
    rw [ih _ hd.2]
    have hc : ∀ c ∈ cs, (s.drawCell d).cell c = s.cell c := fun c hc => by
      have : c ≠ d := fun h => hd.1 (h ▸ hc)
      rw [State.cell_drawCell]; simp [this]
    have hv : (s.drawCell d).v r = if s.cell d = true ∧ r = 0xF then 1 else s.v r := by
      rw [State.drawCell, State.flipCell_v, State.v_collideIf]
    have he : (∃ c ∈ cs, (s.drawCell d).cell c = true) ↔ ∃ c ∈ cs, s.cell c = true :=
      ⟨fun ⟨c, h, h'⟩ => ⟨c, h, (hc c h) ▸ h'⟩, fun ⟨c, h, h'⟩ => ⟨c, h, (hc c h).symm ▸ h'⟩⟩
    simp only [hv, he]
    by_cases hr : r = 0xF <;> by_cases h1 : s.cell d = true <;> by_cases h2 : ∃ c ∈ cs, s.cell c = true <;>
      simp_all

/-! ### Sprites -/

/-- The cells of one sprite row. -/
theorem mem_rowCells {xPos yPos c : Nat} {b : Byte} :
    c ∈ rowCells xPos yPos b ↔ ∃ col, col < 8 ∧ b.getLsbD (7 - col) = true ∧ c = yPos * 64 + (xPos + col) := by
  simp only [rowCells, spriteBit, List.mem_map, List.mem_filter, List.mem_range]
  exact ⟨fun ⟨col, ⟨h, hb⟩, e⟩ => ⟨col, h, hb, e.symm⟩, fun ⟨col, h, hb, e⟩ => ⟨col, ⟨h, hb⟩, e.symm⟩⟩

/-- The cells of a sprite. -/
theorem mem_spriteCells {xPos yPos c : Nat} {rows : List Byte} :
    c ∈ spriteCells xPos yPos rows ↔ ∃ row, ∃ h : row < rows.length, ∃ col, col < 8 ∧ rows[row].getLsbD (7 - col) = true ∧
      c = (yPos + row) * 64 + (xPos + col) := by
  induction rows generalizing yPos with
  | nil => simp [spriteCells]
  | cons b bs ih =>
    simp only [spriteCells, List.mem_append, mem_rowCells, ih]
    constructor
    · rintro (⟨col, hc, hb, rfl⟩ | ⟨row, h, col, hc, hb, rfl⟩)
      · exact ⟨0, by simp, col, hc, hb, by simp⟩
      · exact ⟨row + 1, by simpa using h, col, hc, hb, by ring⟩
    · rintro ⟨row, h, col, hc, hb, rfl⟩
      cases row with
      | zero => exact .inl ⟨col, hc, hb, by simp⟩
      | succ row => exact .inr ⟨row, by simpa using h, col, hc, hb, by ring⟩

/-- The cells DRW Vx,Vy,n visits are the targets of the sprite's set bits (R192). -/
theorem State.mem_sprite_iff (x y n : Nibble) (c : Nat) :
    c ∈ spriteCells (startColumn (s.v x)) (startRow s.params.drwYWrap (s.v y)) (s.peeks (s.ea 0) n.toNat) ↔
      s.SpriteHits x y n c := by
  rw [mem_spriteCells]
  simp only [State.SpriteHits, State.length_peeks, State.getElem_peeks, State.ea, Nat.add_zero, startColumn, startRow]
  exact ⟨fun ⟨row, h, col, h1, h2, h3⟩ => ⟨row, col, h, h1, h2, h3⟩, fun ⟨row, col, h, h1, h2, h3⟩ => ⟨row, h, col, h1, h2, h3⟩⟩

/-- A sprite never targets a cell twice: a row's eight columns stay below the next row's. -/
theorem nodup_spriteCells (xPos yPos : Nat) (rows : List Byte) : (spriteCells xPos yPos rows).Nodup := by
  induction rows generalizing yPos with
  | nil => simp [spriteCells]
  | cons b bs ih =>
    simp only [spriteCells]
    refine List.nodup_append.2 ⟨?_, ih (yPos + 1), ?_⟩
    · refine List.Nodup.map (fun a b h => ?_) (List.Nodup.filter _ List.nodup_range)
      have h' : yPos * 64 + (xPos + a) = yPos * 64 + (xPos + b) := h
      omega
    · intro c hc d hd
      obtain ⟨col, h1, _, rfl⟩ := mem_rowCells.1 hc
      obtain ⟨row, _, col', h2, _, rfl⟩ := mem_spriteCells.1 hd
      have : (yPos + 1 + row) * 64 = yPos * 64 + 64 + row * 64 := by ring
      omega

/-! ### Keys -/

theorem State.mem_waitKeys (k : Nat) : k ∈ s.waitKeys ↔ s.EndsWait k := by
  simp [State.waitKeys, State.EndsWait]

theorem State.lt_of_endsWait {k : Nat} (h : s.EndsWait k) : k < 16 := by
  have := h.1
  cases hp : s.params.waitKeyLast <;> simp [hp, WaitKeyLast.toNat] at this <;> omega

/-- Whatever the choice, a member is chosen. -/
theorem chooseKey_mem (c k : Nat) (ks : List Nat) : chooseKey c k ks ∈ k :: ks := by
  cases ks with
  | nil => simp [chooseKey]
  | cons j ks =>
    have h : c % ((j :: ks).length + 1) < (k :: j :: ks).length := Nat.mod_lt _ (by simp)
    rw [chooseKey]
    · rw [List.getD_eq_getElem _ _ h]; exact List.getElem_mem h
    · simp

/-- Every member is chosen by some choice. -/
theorem chooseKey_surj {j k : Nat} {ks : List Nat} (h : j ∈ k :: ks) : ∃ c, chooseKey c k ks = j := by
  cases ks with
  | nil => exact ⟨0, by simpa [chooseKey, eq_comm] using h⟩
  | cons i ks =>
    obtain ⟨n, hn, rfl⟩ := List.getElem_of_mem h
    refine ⟨n, ?_⟩
    rw [chooseKey, Nat.mod_eq_of_lt (by simpa using hn), List.getD_eq_getElem _ _ hn]
    simp

/-- What the key test can answer (R212). -/
theorem State.testKey_cases (k : Byte) :
    (k.toNat ≤ 0x0F ∧ s.testKey k = .ok (s.pressed k.toNat)) ∨ (k.toNat > 0x0F ∧ s.testKey k = .error .keyOutOfRange) := by
  by_cases h : k.toNat > 0x0F
  · exact .inr ⟨h, by simp only [State.testKey, h, if_true]⟩
  · exact .inl ⟨by omega, by simp only [State.testKey, h, if_false]⟩

theorem State.pressed_eq (k : Fin 16) : s.pressed k.val = s.key[k] := by
  simp [State.pressed, Vector.getD]

/-! ### The end of a handler and of a cycle -/

/-- What a handler's end can answer. -/
theorem settle_cases {s t : State} {r : Except FaultCode State} (h : settle s r = .next t) :
    r = .ok t ∨ ∃ c, r = .error c ∧ t = s.raiseFault c := by
  cases r with
  | ok u => exact .inl (by simpa [settle] using h)
  | error c => exact .inr ⟨c, rfl, by simpa [settle, eq_comm] using h⟩

/-- What the fetch can answer (R100, R101). -/
theorem State.fetch_cases :
    (s.pc.toNat ≤ 0xFFE ∧ s.fetch = .ok (s.wordAt s.pc.toNat)) ∨ (s.pc.toNat > 0xFFE ∧ s.fetch = .error .fetchOutOfRange) := by
  by_cases h : s.pc.toNat > 0xFFE
  · exact .inr ⟨h, by simp only [State.fetch, h, if_true]⟩
  · exact .inl ⟨by omega, by simp only [State.fetch, h, if_false]⟩

theorem State.wordAt_eq (a : Nat) : s.wordAt a = s.peek a ++ s.peek (a + 1) := rfl

/-- The end of a cycle writes `opcode` unless a fault was raised. -/
theorem commitOpcode_next (w : Word) (t : State) :
    commitOpcode w (.next t) = .next (if t.status = .running then { t with opcode := w } else t) := by
  cases h : t.status <;> simp [commitOpcode, h]

theorem commitOpcode_running (w : Word) {t : State} (h : t.status = .running) :
    commitOpcode w (.next t) = .next { t with opcode := w } := by
  simp [commitOpcode, h]

theorem commitOpcode_faulted (w : Word) {t : State} (h : t.status ≠ .running) : commitOpcode w (.next t) = .next t := by
  cases hs : t.status <;> simp_all [commitOpcode]

/-- Everything a step that answers a next state did (R105, R106). -/
theorem step_cases {s t : State} (h : step s = .next t) : s.status = .running ∧
    ((s.pc.toNat > 0xFFE ∧ t = s.raiseFault .fetchOutOfRange) ∨
     (s.pc.toNat ≤ 0xFFE ∧ ∃ u, exec (decodeWord (s.wordAt s.pc.toNat)) s = .next u ∧
       t = if u.status = .running then { u with opcode := s.wordAt s.pc.toNat } else u)) := by
  unfold step cycle at h
  cases hs : s.status with
  | faulted c a => simp [hs] at h
  | running =>
    refine ⟨rfl, ?_⟩
    simp only [hs] at h
    rcases s.fetch_cases with ⟨hp, hf⟩ | ⟨hp, hf⟩
    · refine .inr ⟨hp, ?_⟩
      simp only [hf] at h
      cases he : exec (decodeWord (s.wordAt s.pc.toNat)) s with
      | next u => rw [he, commitOpcode_next] at h; exact ⟨u, rfl, by simpa [eq_comm] using h⟩
      | fault r => simp [he, commitOpcode] at h
      | refused r => simp [he, commitOpcode] at h
    · exact .inl ⟨hp, by simpa [hf, eq_comm] using h⟩

/-- What a step of a running core with a fetchable pc is. -/
theorem step_running {s : State} (hs : s.status = .running) (hp : s.pc.toNat ≤ 0xFFE) :
    step s = commitOpcode (s.wordAt s.pc.toNat) (exec (decodeWord (s.wordAt s.pc.toNat)) s) := by
  rcases s.fetch_cases with ⟨_, hf⟩ | ⟨h, _⟩
  · simp [step, cycle, hs, hf]
  · omega

/-- What CYCLE is (R251): a step, and the load closed. -/
theorem State.hostCycle_next {s t : State} (h : s.hostCycle = .next t) : ∃ u, step s = .next u ∧ t = u.closeLoad := by
  unfold State.hostCycle at h
  cases hs : step s with
  | next u => rw [hs] at h; exact ⟨u, rfl, by simpa [eq_comm] using h⟩
  | fault r => simp [hs] at h
  | refused r => simp [hs] at h

/-- What LOAD_ROM can answer (R271, R272, R257). -/
theorem State.loadRom_cases (s : State) (rom : List Byte) :
    (rom.length > maxRom ∧ s.loadRom rom = .refused .romTooLarge) ∨
    (rom.length ≤ maxRom ∧ s = s.afterReset ∧ s.loadRom rom = .next (s.pokes romBase rom).closeLoad) ∨
    (rom.length ≤ maxRom ∧ s ≠ s.afterReset ∧ s.loadRom rom = .refused .loadRomNotAtReset) := by
  by_cases hl : rom.length > maxRom
  · exact .inl ⟨hl, if_pos hl⟩
  · by_cases hs : s = s.afterReset
    · exact .inr (.inl ⟨by omega, hs, (if_neg hl).trans (if_pos hs)⟩)
    · exact .inr (.inr ⟨by omega, hs, (if_neg hl).trans (if_neg hs)⟩)

/-- A state whose load is closed is not the reset state. -/
theorem State.ne_afterReset {s : State} (h : s.loadOpen = false) : s ≠ s.afterReset := fun he => by
  have : s.loadOpen = true := congrArg State.loadOpen he
  rw [h] at this; cases this

/-- A frame from an equality of the fields that are not said to change. -/
theorem Frame.mono {s t : State} {l l' : List Field} (h : Frame l s t) (hl : ∀ f ∈ l, f ∈ l') : Frame l' s t :=
  fun f hf => h f fun hm => hf (hl f hm)

theorem Frame.refl (l : List Field) : Frame l s s := fun f _ => by cases f <;> simp [Unchanged]

theorem Frame.trans {s t u : State} {l : List Field} (h : Frame l s t) (h' : Frame l t u) : Frame l s u := fun f hf => by
  have a := h f hf
  have b := h' f hf
  cases f <;> simp_all [Unchanged]

end Sys2Proof.Machine
end

