-- ==== Sys2Proof/Laws/Compound.lean ====
section
/-! SUPPORT. What the compound updates of State leave unchanged, field by field and read by read, so that a proof of a frame is a
simp over them. -/

namespace Sys2Proof.Machine

variable (s : State)

/-! ### skipIf -/

@[simp] theorem State.skipIf_mem (c : Bool) : (s.skipIf c).mem = s.mem := by rw [State.skipIf_eq]
@[simp] theorem State.skipIf_V (c : Bool) : (s.skipIf c).V = s.V := by rw [State.skipIf_eq]
@[simp] theorem State.skipIf_I (c : Bool) : (s.skipIf c).I = s.I := by rw [State.skipIf_eq]
@[simp] theorem State.skipIf_stack (c : Bool) : (s.skipIf c).stack = s.stack := by rw [State.skipIf_eq]
@[simp] theorem State.skipIf_sp (c : Bool) : (s.skipIf c).sp = s.sp := by rw [State.skipIf_eq]
@[simp] theorem State.skipIf_DT (c : Bool) : (s.skipIf c).DT = s.DT := by rw [State.skipIf_eq]
@[simp] theorem State.skipIf_ST (c : Bool) : (s.skipIf c).ST = s.ST := by rw [State.skipIf_eq]
@[simp] theorem State.skipIf_key (c : Bool) : (s.skipIf c).key = s.key := by rw [State.skipIf_eq]
@[simp] theorem State.skipIf_fb (c : Bool) : (s.skipIf c).fb = s.fb := by rw [State.skipIf_eq]
@[simp] theorem State.skipIf_opcode (c : Bool) : (s.skipIf c).opcode = s.opcode := by rw [State.skipIf_eq]
@[simp] theorem State.skipIf_status (c : Bool) : (s.skipIf c).status = s.status := by rw [State.skipIf_eq]
@[simp] theorem State.skipIf_params (c : Bool) : (s.skipIf c).params = s.params := by rw [State.skipIf_eq]
@[simp] theorem State.skipIf_draws (c : Bool) : (s.skipIf c).draws = s.draws := by rw [State.skipIf_eq]
@[simp] theorem State.skipIf_loadOpen (c : Bool) : (s.skipIf c).loadOpen = s.loadOpen := by rw [State.skipIf_eq]
@[simp] theorem State.skipIf_v (c : Bool) (q : Nibble) : (s.skipIf c).v q = s.v q := by rw [State.skipIf_eq]; rfl
@[simp] theorem State.skipIf_peek (c : Bool) (n : Nat) : (s.skipIf c).peek n = s.peek n := by rw [State.skipIf_eq]; rfl
@[simp] theorem State.skipIf_cell (c : Bool) (n : Nat) : (s.skipIf c).cell n = s.cell n := by rw [State.skipIf_eq]; rfl
@[simp] theorem State.skipIf_pressed (c : Bool) (n : Nat) : (s.skipIf c).pressed n = s.pressed n := by rw [State.skipIf_eq]; rfl

/-! ### collideIf -/

@[simp] theorem State.collideIf_mem (c : Bool) : (s.collideIf c).mem = s.mem := by rw [State.collideIf_eq]
@[simp] theorem State.collideIf_I (c : Bool) : (s.collideIf c).I = s.I := by rw [State.collideIf_eq]
@[simp] theorem State.collideIf_pc (c : Bool) : (s.collideIf c).pc = s.pc := by rw [State.collideIf_eq]
@[simp] theorem State.collideIf_stack (c : Bool) : (s.collideIf c).stack = s.stack := by rw [State.collideIf_eq]
@[simp] theorem State.collideIf_sp (c : Bool) : (s.collideIf c).sp = s.sp := by rw [State.collideIf_eq]
@[simp] theorem State.collideIf_DT (c : Bool) : (s.collideIf c).DT = s.DT := by rw [State.collideIf_eq]
@[simp] theorem State.collideIf_ST (c : Bool) : (s.collideIf c).ST = s.ST := by rw [State.collideIf_eq]
@[simp] theorem State.collideIf_key (c : Bool) : (s.collideIf c).key = s.key := by rw [State.collideIf_eq]
@[simp] theorem State.collideIf_fb (c : Bool) : (s.collideIf c).fb = s.fb := by rw [State.collideIf_eq]
@[simp] theorem State.collideIf_opcode (c : Bool) : (s.collideIf c).opcode = s.opcode := by rw [State.collideIf_eq]
@[simp] theorem State.collideIf_status (c : Bool) : (s.collideIf c).status = s.status := by rw [State.collideIf_eq]
@[simp] theorem State.collideIf_params (c : Bool) : (s.collideIf c).params = s.params := by rw [State.collideIf_eq]
@[simp] theorem State.collideIf_draws (c : Bool) : (s.collideIf c).draws = s.draws := by rw [State.collideIf_eq]
@[simp] theorem State.collideIf_loadOpen (c : Bool) : (s.collideIf c).loadOpen = s.loadOpen := by rw [State.collideIf_eq]
@[simp] theorem State.collideIf_peek (c : Bool) (n : Nat) : (s.collideIf c).peek n = s.peek n := by rw [State.collideIf_eq]; rfl
@[simp] theorem State.collideIf_cell (c : Bool) (n : Nat) : (s.collideIf c).cell n = s.cell n := by rw [State.collideIf_eq]; rfl
@[simp] theorem State.collideIf_pressed (c : Bool) (n : Nat) : (s.collideIf c).pressed n = s.pressed n := by rw [State.collideIf_eq]; rfl

/-! ### drawCells -/

@[simp] theorem State.drawCells_mem (cs : List Nat) : (s.drawCells cs).mem = s.mem := by rw [State.drawCells_eq]
@[simp] theorem State.drawCells_I (cs : List Nat) : (s.drawCells cs).I = s.I := by rw [State.drawCells_eq]
@[simp] theorem State.drawCells_pc (cs : List Nat) : (s.drawCells cs).pc = s.pc := by rw [State.drawCells_eq]
@[simp] theorem State.drawCells_stack (cs : List Nat) : (s.drawCells cs).stack = s.stack := by rw [State.drawCells_eq]
@[simp] theorem State.drawCells_sp (cs : List Nat) : (s.drawCells cs).sp = s.sp := by rw [State.drawCells_eq]
@[simp] theorem State.drawCells_DT (cs : List Nat) : (s.drawCells cs).DT = s.DT := by rw [State.drawCells_eq]
@[simp] theorem State.drawCells_ST (cs : List Nat) : (s.drawCells cs).ST = s.ST := by rw [State.drawCells_eq]
@[simp] theorem State.drawCells_key (cs : List Nat) : (s.drawCells cs).key = s.key := by rw [State.drawCells_eq]
@[simp] theorem State.drawCells_opcode (cs : List Nat) : (s.drawCells cs).opcode = s.opcode := by rw [State.drawCells_eq]
@[simp] theorem State.drawCells_status (cs : List Nat) : (s.drawCells cs).status = s.status := by rw [State.drawCells_eq]
@[simp] theorem State.drawCells_params (cs : List Nat) : (s.drawCells cs).params = s.params := by rw [State.drawCells_eq]
@[simp] theorem State.drawCells_draws (cs : List Nat) : (s.drawCells cs).draws = s.draws := by rw [State.drawCells_eq]
@[simp] theorem State.drawCells_loadOpen (cs : List Nat) : (s.drawCells cs).loadOpen = s.loadOpen := by rw [State.drawCells_eq]
@[simp] theorem State.drawCells_peek (cs : List Nat) (n : Nat) : (s.drawCells cs).peek n = s.peek n := by rw [State.drawCells_eq]; rfl
@[simp] theorem State.drawCells_pressed (cs : List Nat) (n : Nat) : (s.drawCells cs).pressed n = s.pressed n := by rw [State.drawCells_eq]; rfl

/-! ### loadRegs -/

@[simp] theorem State.loadRegs_mem (k : Nat) (bs : List Byte) : (s.loadRegs k bs).mem = s.mem := by rw [State.loadRegs_eq]
@[simp] theorem State.loadRegs_I (k : Nat) (bs : List Byte) : (s.loadRegs k bs).I = s.I := by rw [State.loadRegs_eq]
@[simp] theorem State.loadRegs_pc (k : Nat) (bs : List Byte) : (s.loadRegs k bs).pc = s.pc := by rw [State.loadRegs_eq]
@[simp] theorem State.loadRegs_stack (k : Nat) (bs : List Byte) : (s.loadRegs k bs).stack = s.stack := by rw [State.loadRegs_eq]
@[simp] theorem State.loadRegs_sp (k : Nat) (bs : List Byte) : (s.loadRegs k bs).sp = s.sp := by rw [State.loadRegs_eq]
@[simp] theorem State.loadRegs_DT (k : Nat) (bs : List Byte) : (s.loadRegs k bs).DT = s.DT := by rw [State.loadRegs_eq]
@[simp] theorem State.loadRegs_ST (k : Nat) (bs : List Byte) : (s.loadRegs k bs).ST = s.ST := by rw [State.loadRegs_eq]
@[simp] theorem State.loadRegs_key (k : Nat) (bs : List Byte) : (s.loadRegs k bs).key = s.key := by rw [State.loadRegs_eq]
@[simp] theorem State.loadRegs_fb (k : Nat) (bs : List Byte) : (s.loadRegs k bs).fb = s.fb := by rw [State.loadRegs_eq]
@[simp] theorem State.loadRegs_opcode (k : Nat) (bs : List Byte) : (s.loadRegs k bs).opcode = s.opcode := by rw [State.loadRegs_eq]
@[simp] theorem State.loadRegs_status (k : Nat) (bs : List Byte) : (s.loadRegs k bs).status = s.status := by rw [State.loadRegs_eq]
@[simp] theorem State.loadRegs_params (k : Nat) (bs : List Byte) : (s.loadRegs k bs).params = s.params := by rw [State.loadRegs_eq]
@[simp] theorem State.loadRegs_draws (k : Nat) (bs : List Byte) : (s.loadRegs k bs).draws = s.draws := by rw [State.loadRegs_eq]
@[simp] theorem State.loadRegs_loadOpen (k : Nat) (bs : List Byte) : (s.loadRegs k bs).loadOpen = s.loadOpen := by rw [State.loadRegs_eq]
@[simp] theorem State.loadRegs_peek (k : Nat) (bs : List Byte) (n : Nat) : (s.loadRegs k bs).peek n = s.peek n := by rw [State.loadRegs_eq]; rfl
@[simp] theorem State.loadRegs_cell (k : Nat) (bs : List Byte) (n : Nat) : (s.loadRegs k bs).cell n = s.cell n := by rw [State.loadRegs_eq]; rfl
@[simp] theorem State.loadRegs_pressed (k : Nat) (bs : List Byte) (n : Nat) : (s.loadRegs k bs).pressed n = s.pressed n := by rw [State.loadRegs_eq]; rfl

/-! ### pokes -/

@[simp] theorem State.pokes_V (a : Nat) (bs : List Byte) : (s.pokes a bs).V = s.V := by rw [State.pokes_eq]
@[simp] theorem State.pokes_I (a : Nat) (bs : List Byte) : (s.pokes a bs).I = s.I := by rw [State.pokes_eq]
@[simp] theorem State.pokes_pc (a : Nat) (bs : List Byte) : (s.pokes a bs).pc = s.pc := by rw [State.pokes_eq]
@[simp] theorem State.pokes_stack (a : Nat) (bs : List Byte) : (s.pokes a bs).stack = s.stack := by rw [State.pokes_eq]
@[simp] theorem State.pokes_sp (a : Nat) (bs : List Byte) : (s.pokes a bs).sp = s.sp := by rw [State.pokes_eq]
@[simp] theorem State.pokes_DT (a : Nat) (bs : List Byte) : (s.pokes a bs).DT = s.DT := by rw [State.pokes_eq]
@[simp] theorem State.pokes_ST (a : Nat) (bs : List Byte) : (s.pokes a bs).ST = s.ST := by rw [State.pokes_eq]
@[simp] theorem State.pokes_key (a : Nat) (bs : List Byte) : (s.pokes a bs).key = s.key := by rw [State.pokes_eq]
@[simp] theorem State.pokes_fb (a : Nat) (bs : List Byte) : (s.pokes a bs).fb = s.fb := by rw [State.pokes_eq]
@[simp] theorem State.pokes_opcode (a : Nat) (bs : List Byte) : (s.pokes a bs).opcode = s.opcode := by rw [State.pokes_eq]
@[simp] theorem State.pokes_status (a : Nat) (bs : List Byte) : (s.pokes a bs).status = s.status := by rw [State.pokes_eq]
@[simp] theorem State.pokes_params (a : Nat) (bs : List Byte) : (s.pokes a bs).params = s.params := by rw [State.pokes_eq]
@[simp] theorem State.pokes_draws (a : Nat) (bs : List Byte) : (s.pokes a bs).draws = s.draws := by rw [State.pokes_eq]
@[simp] theorem State.pokes_loadOpen (a : Nat) (bs : List Byte) : (s.pokes a bs).loadOpen = s.loadOpen := by rw [State.pokes_eq]
@[simp] theorem State.pokes_v (a : Nat) (bs : List Byte) (q : Nibble) : (s.pokes a bs).v q = s.v q := by rw [State.pokes_eq]; rfl
@[simp] theorem State.pokes_cell (a : Nat) (bs : List Byte) (n : Nat) : (s.pokes a bs).cell n = s.cell n := by rw [State.pokes_eq]; rfl
@[simp] theorem State.pokes_pressed (a : Nat) (bs : List Byte) (n : Nat) : (s.pokes a bs).pressed n = s.pressed n := by rw [State.pokes_eq]; rfl

/-! ### flagThen -/

@[simp] theorem State.flagThen_mem (b : Byte) (x : Nibble) (g : State → Byte) : (s.flagThen b x g).mem = s.mem := rfl
@[simp] theorem State.flagThen_I (b : Byte) (x : Nibble) (g : State → Byte) : (s.flagThen b x g).I = s.I := rfl
@[simp] theorem State.flagThen_pc (b : Byte) (x : Nibble) (g : State → Byte) : (s.flagThen b x g).pc = s.pc := rfl
@[simp] theorem State.flagThen_stack (b : Byte) (x : Nibble) (g : State → Byte) : (s.flagThen b x g).stack = s.stack := rfl
@[simp] theorem State.flagThen_sp (b : Byte) (x : Nibble) (g : State → Byte) : (s.flagThen b x g).sp = s.sp := rfl
@[simp] theorem State.flagThen_DT (b : Byte) (x : Nibble) (g : State → Byte) : (s.flagThen b x g).DT = s.DT := rfl
@[simp] theorem State.flagThen_ST (b : Byte) (x : Nibble) (g : State → Byte) : (s.flagThen b x g).ST = s.ST := rfl
@[simp] theorem State.flagThen_key (b : Byte) (x : Nibble) (g : State → Byte) : (s.flagThen b x g).key = s.key := rfl
@[simp] theorem State.flagThen_fb (b : Byte) (x : Nibble) (g : State → Byte) : (s.flagThen b x g).fb = s.fb := rfl
@[simp] theorem State.flagThen_opcode (b : Byte) (x : Nibble) (g : State → Byte) : (s.flagThen b x g).opcode = s.opcode := rfl
@[simp] theorem State.flagThen_status (b : Byte) (x : Nibble) (g : State → Byte) : (s.flagThen b x g).status = s.status := rfl
@[simp] theorem State.flagThen_params (b : Byte) (x : Nibble) (g : State → Byte) : (s.flagThen b x g).params = s.params := rfl
@[simp] theorem State.flagThen_draws (b : Byte) (x : Nibble) (g : State → Byte) : (s.flagThen b x g).draws = s.draws := rfl
@[simp] theorem State.flagThen_loadOpen (b : Byte) (x : Nibble) (g : State → Byte) : (s.flagThen b x g).loadOpen = s.loadOpen := rfl
@[simp] theorem State.flagThen_peek (b : Byte) (x : Nibble) (g : State → Byte) (n : Nat) : (s.flagThen b x g).peek n = s.peek n := rfl
@[simp] theorem State.flagThen_cell (b : Byte) (x : Nibble) (g : State → Byte) (n : Nat) : (s.flagThen b x g).cell n = s.cell n := rfl
@[simp] theorem State.flagThen_pressed (b : Byte) (x : Nibble) (g : State → Byte) (n : Nat) : (s.flagThen b x g).pressed n = s.pressed n := rfl

/-! ### rnd -/

@[simp] theorem State.rnd_mem (b : Byte) (x : Nibble) (kk : Byte) : (s.rnd b x kk).mem = s.mem := rfl
@[simp] theorem State.rnd_I (b : Byte) (x : Nibble) (kk : Byte) : (s.rnd b x kk).I = s.I := rfl
@[simp] theorem State.rnd_pc (b : Byte) (x : Nibble) (kk : Byte) : (s.rnd b x kk).pc = s.pc := rfl
@[simp] theorem State.rnd_stack (b : Byte) (x : Nibble) (kk : Byte) : (s.rnd b x kk).stack = s.stack := rfl
@[simp] theorem State.rnd_sp (b : Byte) (x : Nibble) (kk : Byte) : (s.rnd b x kk).sp = s.sp := rfl
@[simp] theorem State.rnd_DT (b : Byte) (x : Nibble) (kk : Byte) : (s.rnd b x kk).DT = s.DT := rfl
@[simp] theorem State.rnd_ST (b : Byte) (x : Nibble) (kk : Byte) : (s.rnd b x kk).ST = s.ST := rfl
@[simp] theorem State.rnd_key (b : Byte) (x : Nibble) (kk : Byte) : (s.rnd b x kk).key = s.key := rfl
@[simp] theorem State.rnd_fb (b : Byte) (x : Nibble) (kk : Byte) : (s.rnd b x kk).fb = s.fb := rfl
@[simp] theorem State.rnd_opcode (b : Byte) (x : Nibble) (kk : Byte) : (s.rnd b x kk).opcode = s.opcode := rfl
@[simp] theorem State.rnd_status (b : Byte) (x : Nibble) (kk : Byte) : (s.rnd b x kk).status = s.status := rfl
@[simp] theorem State.rnd_params (b : Byte) (x : Nibble) (kk : Byte) : (s.rnd b x kk).params = s.params := rfl
@[simp] theorem State.rnd_draws (b : Byte) (x : Nibble) (kk : Byte) : (s.rnd b x kk).draws = s.draws := rfl
@[simp] theorem State.rnd_loadOpen (b : Byte) (x : Nibble) (kk : Byte) : (s.rnd b x kk).loadOpen = s.loadOpen := rfl
@[simp] theorem State.rnd_peek (b : Byte) (x : Nibble) (kk : Byte) (n : Nat) : (s.rnd b x kk).peek n = s.peek n := rfl
@[simp] theorem State.rnd_cell (b : Byte) (x : Nibble) (kk : Byte) (n : Nat) : (s.rnd b x kk).cell n = s.cell n := rfl
@[simp] theorem State.rnd_pressed (b : Byte) (x : Nibble) (kk : Byte) (n : Nat) : (s.rnd b x kk).pressed n = s.pressed n := rfl

end Sys2Proof.Machine
end

