-- ==== Sys2Proof/Laws/Decode.lean ====
section
/-! SUPPORT. The bits and the fields of an assembled word, in each of the three shapes of 30_encoding.md R71. -/

namespace Sys2Proof

/-- Bit `i` of p, x, y, n assembled. -/
theorem getLsbD_xyn (p x y n : Nibble) (i : Nat) : (wordXYN p x y n).getLsbD i =
    if i < 4 then n.getLsbD i else if i < 8 then y.getLsbD (i - 4) else if i < 12 then x.getLsbD (i - 8)
    else p.getLsbD (i - 12) := by
  refine (BitVec.getLsbD_append (x := p ++ x ++ y) (y := n) (i := i)).trans ?_
  simp only [BitVec.getLsbD_append, Nat.sub_sub]
  repeat' split
  all_goals first | rfl | omega

/-- Bit `i` of p, x, kk assembled. -/
theorem getLsbD_xkk (p x : Nibble) (kk : Byte) (i : Nat) : (wordXKK p x kk).getLsbD i =
    if i < 8 then kk.getLsbD i else if i < 12 then x.getLsbD (i - 8) else p.getLsbD (i - 12) := by
  refine (BitVec.getLsbD_append (x := p ++ x) (y := kk) (i := i)).trans ?_
  simp only [BitVec.getLsbD_append, Nat.sub_sub]
  repeat' split
  all_goals first | rfl | omega

/-- Bit `i` of p, nnn assembled. -/
theorem getLsbD_nnn (p : Nibble) (nnn : BitVec 12) (i : Nat) : (wordNNN p nnn).getLsbD i =
    if i < 12 then nnn.getLsbD i else p.getLsbD (i - 12) :=
  BitVec.getLsbD_append (x := p) (y := nnn) (i := i)

/-- Bit `i` of two bytes assembled. -/
theorem getLsbD_wordOfBytes (high low : Byte) (i : Nat) : (wordOfBytes high low).getLsbD i =
    if i < 8 then low.getLsbD i else high.getLsbD (i - 8) :=
  BitVec.getLsbD_append (x := high) (y := low) (i := i)

section XYN
variable (p x y n : Nibble)

@[simp] theorem primary_xyn : primary (wordXYN p x y n) = p := by
  refine BitVec.eq_of_getLsbD_eq fun i hi => ?_
  interval_cases i <;> simp [primary, BitVec.getLsbD_extractLsb', getLsbD_xyn, -BitVec.getLsbD_eq_getElem]

@[simp] theorem fieldX_xyn : fieldX (wordXYN p x y n) = x := by
  refine BitVec.eq_of_getLsbD_eq fun i hi => ?_
  interval_cases i <;> simp [fieldX, BitVec.getLsbD_extractLsb', getLsbD_xyn, -BitVec.getLsbD_eq_getElem]

@[simp] theorem fieldY_xyn : fieldY (wordXYN p x y n) = y := by
  refine BitVec.eq_of_getLsbD_eq fun i hi => ?_
  interval_cases i <;> simp [fieldY, BitVec.getLsbD_extractLsb', getLsbD_xyn, -BitVec.getLsbD_eq_getElem]

@[simp] theorem fieldN_xyn : fieldN (wordXYN p x y n) = n := by
  refine BitVec.eq_of_getLsbD_eq fun i hi => ?_
  interval_cases i <;> simp [fieldN, BitVec.getLsbD_extractLsb', getLsbD_xyn, -BitVec.getLsbD_eq_getElem]

end XYN

section XKK
variable (p x : Nibble) (kk : Byte)

@[simp] theorem primary_xkk : primary (wordXKK p x kk) = p := by
  refine BitVec.eq_of_getLsbD_eq fun i hi => ?_
  interval_cases i <;> simp [primary, BitVec.getLsbD_extractLsb', getLsbD_xkk, -BitVec.getLsbD_eq_getElem]

@[simp] theorem fieldX_xkk : fieldX (wordXKK p x kk) = x := by
  refine BitVec.eq_of_getLsbD_eq fun i hi => ?_
  interval_cases i <;> simp [fieldX, BitVec.getLsbD_extractLsb', getLsbD_xkk, -BitVec.getLsbD_eq_getElem]

@[simp] theorem fieldKK_xkk : fieldKK (wordXKK p x kk) = kk := by
  refine BitVec.eq_of_getLsbD_eq fun i hi => ?_
  interval_cases i <;> simp [fieldKK, BitVec.getLsbD_extractLsb', getLsbD_xkk, -BitVec.getLsbD_eq_getElem]

@[simp] theorem fieldN_xkk : fieldN (wordXKK p x kk) = kk.extractLsb' 0 4 := by
  refine BitVec.eq_of_getLsbD_eq fun i hi => ?_
  interval_cases i <;> simp [fieldN, BitVec.getLsbD_extractLsb', getLsbD_xkk, -BitVec.getLsbD_eq_getElem]

end XKK

section NNN
variable (p : Nibble) (nnn : BitVec 12)

@[simp] theorem primary_nnn : primary (wordNNN p nnn) = p := by
  refine BitVec.eq_of_getLsbD_eq fun i hi => ?_
  interval_cases i <;> simp [primary, BitVec.getLsbD_extractLsb', getLsbD_nnn, -BitVec.getLsbD_eq_getElem]

@[simp] theorem fieldNNN_nnn : fieldNNN (wordNNN p nnn) = nnn := by
  refine BitVec.eq_of_getLsbD_eq fun i hi => ?_
  interval_cases i <;> simp [fieldNNN, BitVec.getLsbD_extractLsb', getLsbD_nnn, -BitVec.getLsbD_eq_getElem]

@[simp] theorem fieldN_nnn : fieldN (wordNNN p nnn) = lowNibble nnn := by
  refine BitVec.eq_of_getLsbD_eq fun i hi => ?_
  interval_cases i <;> simp [fieldN, BitVec.getLsbD_extractLsb', getLsbD_nnn, -BitVec.getLsbD_eq_getElem]

@[simp] theorem fieldKK_nnn : fieldKK (wordNNN p nnn) = lowByte nnn := by
  refine BitVec.eq_of_getLsbD_eq fun i hi => ?_
  interval_cases i <;> simp [fieldKK, BitVec.getLsbD_extractLsb', getLsbD_nnn, -BitVec.getLsbD_eq_getElem]

end NNN

/-- Every word is its primary, x, y and n assembled. -/
theorem word_eq_xyn (w : Word) : w = wordXYN (primary w) (fieldX w) (fieldY w) (fieldN w) := by
  refine BitVec.eq_of_getLsbD_eq fun i hi => ?_
  interval_cases i <;> simp [primary, fieldX, fieldY, fieldN, BitVec.getLsbD_extractLsb', getLsbD_xyn, -BitVec.getLsbD_eq_getElem]

/-- Every word is its primary, x and kk assembled. -/
theorem word_eq_xkk (w : Word) : w = wordXKK (primary w) (fieldX w) (fieldKK w) := by
  refine BitVec.eq_of_getLsbD_eq fun i hi => ?_
  interval_cases i <;> simp [primary, fieldX, fieldKK, BitVec.getLsbD_extractLsb', getLsbD_xkk, -BitVec.getLsbD_eq_getElem]

/-- Every word is its primary and nnn assembled. -/
theorem word_eq_nnn (w : Word) : w = wordNNN (primary w) (fieldNNN w) := by
  refine BitVec.eq_of_getLsbD_eq fun i hi => ?_
  interval_cases i <;> simp [primary, fieldNNN, BitVec.getLsbD_extractLsb', getLsbD_nnn, -BitVec.getLsbD_eq_getElem]

/-- A word is its two bytes, high byte first. -/
@[simp] theorem wordOfBytes_bytes (w : Word) : wordOfBytes (highByte w) (lowByteOf w) = w := by
  refine BitVec.eq_of_getLsbD_eq fun i hi => ?_
  interval_cases i <;> simp [highByte, lowByteOf, BitVec.getLsbD_extractLsb', getLsbD_wordOfBytes, -BitVec.getLsbD_eq_getElem]

@[simp] theorem decodeBytes_bytes (w : Word) (rest : List Byte) :
    decodeBytes (bytesOfWord w ++ rest) = .ok (decodeWord w, rest) := by
  simp [decodeBytes, bytesOfWord]

end Sys2Proof
end

