-- ==== Sys2Proof/Laws/PerInstr.lean ====
section
/-! SUPPORT. The family TableRow: the word of every well-formed instruction has the selector bits of its row of
spec/opcode_table.json (30_encoding.md R75). One lemma for each constructor. -/

namespace Sys2Proof.Laws.TableRow

/-- The word of `i` carries its row's "match" under its row's "mask". -/
def Statement (i : Instr) : Prop := i.WellFormed → encode i &&& i.tableMask = i.tableMatch

/-- A mask on the primary and the low nibble keeps just those. -/
theorem mask_F00F (p x y n : Nibble) : wordXYN p x y n &&& 0xF00F = wordXYN p 0x0 0x0 n := by
  refine BitVec.eq_of_getLsbD_eq fun i hi => ?_
  rw [BitVec.getLsbD_and]
  interval_cases i <;> simp [getLsbD_xyn, -BitVec.getLsbD_eq_getElem]

/-- A mask on the primary keeps just that. -/
theorem mask_F000 (w : Word) : w &&& 0xF000 = wordNNN (primary w) 0 := by
  refine BitVec.eq_of_getLsbD_eq fun i hi => ?_
  rw [BitVec.getLsbD_and]
  interval_cases i <;> simp [getLsbD_nnn, primary, BitVec.getLsbD_extractLsb', -BitVec.getLsbD_eq_getElem]

/-- A mask on the primary and the low byte keeps just those. -/
theorem mask_F0FF (p x : Nibble) (kk : Byte) : wordXKK p x kk &&& 0xF0FF = wordXKK p 0x0 kk := by
  refine BitVec.eq_of_getLsbD_eq fun i hi => ?_
  rw [BitVec.getLsbD_and]
  interval_cases i <;> simp [getLsbD_xkk, -BitVec.getLsbD_eq_getElem]

/-- Ex9E and ExA1 written by nibbles. -/
theorem xkk_eq_xyn (p x y n : Nibble) : wordXKK p x (y ++ n) = wordXYN p x y n := by
  refine BitVec.eq_of_getLsbD_eq fun i hi => ?_
  rw [getLsbD_xkk, getLsbD_xyn, BitVec.getLsbD_append]
  interval_cases i <;> simp

theorem cls : Statement (.cls) := fun _ => by decide

theorem ret : Statement (.ret) := fun _ => by decide

theorem jpAddr (nnn : Addr) : Statement (.jpAddr nnn) := fun _ => (mask_F000 _).trans (by rw [encode, primary_nnn]; rfl)

theorem callAddr (nnn : Addr) : Statement (.callAddr nnn) := fun _ => (mask_F000 _).trans (by rw [encode, primary_nnn]; rfl)

theorem seVxByte (x : Nibble) (kk : Byte) : Statement (.seVxByte x kk) := fun _ => (mask_F000 _).trans (by rw [encode, primary_xkk]; rfl)

theorem sneVxByte (x : Nibble) (kk : Byte) : Statement (.sneVxByte x kk) := fun _ => (mask_F000 _).trans (by rw [encode, primary_xkk]; rfl)

theorem seVxVy (x y : Nibble) : Statement (.seVxVy x y) := fun _ => (mask_F000 _).trans (by rw [encode, primary_xyn]; rfl)

theorem ldVxByte (x : Nibble) (kk : Byte) : Statement (.ldVxByte x kk) := fun _ => (mask_F000 _).trans (by rw [encode, primary_xkk]; rfl)

theorem addVxByte (x : Nibble) (kk : Byte) : Statement (.addVxByte x kk) := fun _ => (mask_F000 _).trans (by rw [encode, primary_xkk]; rfl)

theorem ldVxVy (x y : Nibble) : Statement (.ldVxVy x y) := fun _ => mask_F00F _ _ _ _

theorem orVxVy (x y : Nibble) : Statement (.orVxVy x y) := fun _ => mask_F00F _ _ _ _

theorem andVxVy (x y : Nibble) : Statement (.andVxVy x y) := fun _ => mask_F00F _ _ _ _

theorem xorVxVy (x y : Nibble) : Statement (.xorVxVy x y) := fun _ => mask_F00F _ _ _ _

theorem addVxVy (x y : Nibble) : Statement (.addVxVy x y) := fun _ => mask_F00F _ _ _ _

theorem subVxVy (x y : Nibble) : Statement (.subVxVy x y) := fun _ => mask_F00F _ _ _ _

theorem shrVx (x : Nibble) : Statement (.shrVx x) := fun _ => mask_F00F _ _ _ _

theorem subnVxVy (x y : Nibble) : Statement (.subnVxVy x y) := fun _ => mask_F00F _ _ _ _

theorem shlVx (x : Nibble) : Statement (.shlVx x) := fun _ => mask_F00F _ _ _ _

theorem sneVxVy (x y : Nibble) : Statement (.sneVxVy x y) := fun _ => (mask_F000 _).trans (by rw [encode, primary_xyn]; rfl)

theorem ldIAddr (nnn : Addr) : Statement (.ldIAddr nnn) := fun _ => (mask_F000 _).trans (by rw [encode, primary_nnn]; rfl)

theorem jpV0Addr (nnn : Addr) : Statement (.jpV0Addr nnn) := fun _ => (mask_F000 _).trans (by rw [encode, primary_nnn]; rfl)

theorem rndVxByte (x : Nibble) (kk : Byte) : Statement (.rndVxByte x kk) := fun _ => (mask_F000 _).trans (by rw [encode, primary_xkk]; rfl)

theorem drwVxVyN (x y n : Nibble) : Statement (.drwVxVyN x y n) := fun _ => (mask_F000 _).trans (by rw [encode, primary_xyn]; rfl)

theorem skpVx (x : Nibble) : Statement (.skpVx x) := fun _ => (congrArg (· &&& 0xF00F) (xkk_eq_xyn 0xE x 0x9 0xE)).trans (mask_F00F _ _ _ _)

theorem sknpVx (x : Nibble) : Statement (.sknpVx x) := fun _ => (congrArg (· &&& 0xF00F) (xkk_eq_xyn 0xE x 0xA 0x1)).trans (mask_F00F _ _ _ _)

theorem ldVxDt (x : Nibble) : Statement (.ldVxDt x) := fun _ => mask_F0FF _ _ _

theorem ldVxK (x : Nibble) : Statement (.ldVxK x) := fun _ => mask_F0FF _ _ _

theorem ldDtVx (x : Nibble) : Statement (.ldDtVx x) := fun _ => mask_F0FF _ _ _

theorem ldStVx (x : Nibble) : Statement (.ldStVx x) := fun _ => mask_F0FF _ _ _

theorem addIVx (x : Nibble) : Statement (.addIVx x) := fun _ => mask_F0FF _ _ _

theorem ldFVx (x : Nibble) : Statement (.ldFVx x) := fun _ => mask_F0FF _ _ _

theorem ldBVx (x : Nibble) : Statement (.ldBVx x) := fun _ => mask_F0FF _ _ _

theorem ldMemVx (x : Nibble) : Statement (.ldMemVx x) := fun _ => mask_F0FF _ _ _

theorem ldVxMem (x : Nibble) : Statement (.ldVxMem x) := fun _ => mask_F0FF _ _ _

theorem nop0 (rest : BitVec 12) : Statement (.nop0 rest) := fun _ => (mask_F000 _).trans (by rw [encode, primary_nnn]; rfl)

theorem nop8 (rest : BitVec 12) : Statement (.nop8 rest) := fun _ => (mask_F000 _).trans (by rw [encode, primary_nnn]; rfl)

theorem nopE (rest : BitVec 12) : Statement (.nopE rest) := fun _ => (mask_F000 _).trans (by rw [encode, primary_nnn]; rfl)

theorem nopF (rest : BitVec 12) : Statement (.nopF rest) := fun _ => (mask_F000 _).trans (by rw [encode, primary_nnn]; rfl)

end Sys2Proof.Laws.TableRow
end

