-- ==== Sys2Proof/Tests/Slice0.lean ====
section
/-! SUPPORT. Tests: ill-formed terms are refused, written-out words decode, one step does what the vectors of 95_test_vectors.md say,
and a witness for the hypotheses of every obligation that has some. -/

open Sys2Proof Sys2Proof.Machine

namespace Sys2Proof.Tests

set_option Elab.async false

/-! ### Helpers -/

/-- `o` is a next state that satisfies `p`. -/
def nextIs (o : Host.Outcome State Fault Refusal) (p : State → Bool) : Bool :=
  match o with
  | .next t => p t
  | .fault _ => false
  | .refused _ => false

/-- `o` is the refusal `r`. -/
def refusedIs (o : Host.Outcome State Fault Refusal) (r : Refusal) : Bool :=
  match o with
  | .next _ => false
  | .fault _ => false
  | .refused q => q == r

theorem of_nextIs {o : Host.Outcome State Fault Refusal} {p : State → Bool} (h : nextIs o p = true) :
    ∃ t, o = .next t ∧ p t = true := by
  cases o with
  | next t => exact ⟨t, rfl, h⟩
  | fault r => cases h
  | refused r => cases h

/-- The reset state with registers set. -/
def regs : List (Nibble × Byte) → State
  | [] => State.reset
  | (r, b) :: rest => (regs rest).setV r b

/-- `s` with word `w` at pc. -/
def at_ (w : Word) (s : State) : State := s.pokes s.pc.toNat (bytesOfWord w)

/-- A start state of the vectors: registers set, and word `w` at 0x200. -/
def start (w : Word) (vs : List (Nibble × Byte)) : State := at_ w (regs vs)

/-- Every field but the font agrees (comparing 80 bytes in every test would cost more than the test). -/
def same (t u : State) : Bool :=
  t.mem == u.mem && t.V == u.V && t.I == u.I && t.pc == u.pc && t.stack == u.stack && t.sp == u.sp && t.DT == u.DT && t.ST == u.ST &&
  t.key == u.key && t.fb == u.fb && t.opcode == u.opcode && t.status == u.status && t.draws == u.draws && t.loadOpen == u.loadOpen &&
  t.params.drwYWrap == u.params.drwYWrap && t.params.waitKeyLast == u.params.waitKeyLast

/-- One step from `s` ends in `f s`, with `opcode` written; every other field (`same`) is as it was. -/
def stepsTo (w : Word) (s : State) (f : State → State) : Bool :=
  nextIs (step s) fun t => same t { f s with opcode := w }

/-- The vector's shape: word `w` at 0x200, registers `vs`; the step ends in `f` of the start state. -/
def vec (w : Word) (vs : List (Nibble × Byte)) (f : State → State) : Bool := stepsTo w (start w vs) f

/-- One step from `s` faults with code `c` at address `a`, and changes nothing else (R232). -/
def faultsAt (s : State) (c : FaultCode) (a : Word) : Bool :=
  nextIs (step s) fun t => same t { s with status := .faulted c a }

/-- pc moved to `w`. -/
def atPc (w : Word) (s : State) : State := { s with pc := w }

/-- pc moved on by one instruction from 0x200, and registers written. -/
def on (vs : List (Nibble × Byte)) (s : State) : State := { vs.foldr (fun p t => t.setV p.1 p.2) s with pc := 0x202 }

/-- The framebuffer with exactly the cells of `cs` on. -/
def cells : List Nat → BitVec 2048
  | [] => 0
  | c :: cs => cells cs ||| BitVec.twoPow 2048 c

/-- A start state of the display table: sprite bytes at 0x300, I = 0x300. -/
def drw (w : Word) (vs : List (Nibble × Byte)) (sprite : List Byte) (fb : List Nat) : State :=
  { (start w vs).pokes 0x300 sprite with I := 0x300, fb := cells fb }

/-- The same machine with `DRW_Y_WRAP` = 32. -/
def wrap32 (s : State) : State := { s with params := { s.params with drwYWrap := .rows32 } }

/-- The same machine with `WAIT_KEY_LAST` = 0xF. -/
def lastF (s : State) : State := { s with params := { s.params with waitKeyLast := .keyF } }

/-- Keys pressed. -/
def keys (ks : List Nibble) (s : State) : State := ks.foldr (fun k t => t.setKey k true) s

/-! ### WellFormed: one ill-formed term for each check (R82) -/

theorem test_wf_nop0_cls : ¬ (Instr.nop0 0x0E0).WellFormed := by decide
theorem test_wf_nop0_ret : ¬ (Instr.nop0 0x12E).WellFormed := by decide
theorem test_wf_nop8 : ¬ (Instr.nop8 0x127).WellFormed ∧ ¬ (Instr.nop8 0x12E).WellFormed := by decide
theorem test_wf_nopE : ¬ (Instr.nopE 0x19E).WellFormed ∧ ¬ (Instr.nopE 0x1A1).WellFormed := by decide
theorem test_wf_nopF : ¬ (Instr.nopF 0x107).WellFormed ∧ ¬ (Instr.nopF 0x165).WellFormed := by decide
theorem test_wf_accepts : (Instr.nop0 0x0E1).WellFormed ∧ (Instr.nop8 0x008).WellFormed ∧ (Instr.nopE 0x1A2).WellFormed ∧
    (Instr.nopF 0x1FF).WellFormed ∧ (Instr.drwVxVyN 15 15 15).WellFormed := by decide

/-! ### Words written out bit by bit from the encoding column of R75 -/

theorem test_decode_control_flow :
    decodeWord 0b0000000011101110 = .ret ∧
    decodeWord 0b0001001101000101 = .jpAddr 0x345 ∧
    decodeWord 0b0010001000010000 = .callAddr 0x210 ∧
    decodeWord 0b0011000100010000 = .seVxByte 1 0x10 ∧
    decodeWord 0b0100000100010001 = .sneVxByte 1 0x11 ∧
    decodeWord 0b0101000100100000 = .seVxVy 1 2 ∧
    decodeWord 0b1001000100100000 = .sneVxVy 1 2 ∧
    decodeWord 0b1011001100000000 = .jpV0Addr 0x300 := by decide

theorem test_decode_alu :
    decodeWord 0b0110101011101010 = .ldVxByte 0xA 0xEA ∧
    decodeWord 0b0111000100000010 = .addVxByte 1 0x02 ∧
    decodeWord 0b1000000100100000 = .ldVxVy 1 2 ∧
    decodeWord 0b1000000100100001 = .orVxVy 1 2 ∧
    decodeWord 0b1000000100100010 = .andVxVy 1 2 ∧
    decodeWord 0b1000000100100011 = .xorVxVy 1 2 ∧
    decodeWord 0b1000000100100100 = .addVxVy 1 2 ∧
    decodeWord 0b1000000100100101 = .subVxVy 1 2 ∧
    decodeWord 0b1000000100000110 = .shrVx 1 ∧
    decodeWord 0b1000000100100111 = .subnVxVy 1 2 ∧
    decodeWord 0b1000000100001110 = .shlVx 1 ∧
    decodeWord 0b1100000100001111 = .rndVxByte 1 0x0F := by decide

theorem test_decode_index_memory :
    decodeWord 0b1010001100000000 = .ldIAddr 0x300 ∧
    decodeWord 0b1111000100011110 = .addIVx 1 ∧
    decodeWord 0b1111000100101001 = .ldFVx 1 ∧
    decodeWord 0b1111000100110011 = .ldBVx 1 ∧
    decodeWord 0b1111001001010101 = .ldMemVx 2 ∧
    decodeWord 0b1111001001100101 = .ldVxMem 2 := by decide

theorem test_decode_display :
    decodeWord 0b0000000011100000 = .cls ∧
    decodeWord 0b1101000100100101 = .drwVxVyN 1 2 5 := by decide

theorem test_decode_keys_timers :
    decodeWord 0b1110000110011110 = .skpVx 1 ∧
    decodeWord 0b1110000110100001 = .sknpVx 1 ∧
    decodeWord 0b1111001100000111 = .ldVxDt 3 ∧
    decodeWord 0b1111010100001010 = .ldVxK 5 ∧
    decodeWord 0b1111000100010101 = .ldDtVx 1 ∧
    decodeWord 0b1111001000011000 = .ldStVx 2 := by decide

theorem test_decode_null_handler :
    decodeWord 0b0000000011100001 = .nop0 0x0E1 ∧
    decodeWord 0b1000000000001000 = .nop8 0x008 ∧
    decodeWord 0b1110000110100010 = .nopE 0x1A2 ∧
    decodeWord 0b1111000111111111 = .nopF 0x1FF := by decide

/-- A byte list too short for a word is refused, by name. -/
theorem test_decode_truncated : decodeBytes [0x12] = .error (.truncated 1) ∧ decodeBytes [] = .error (.truncated 0) := ⟨rfl, rfl⟩

/-- The table's numbering: bit 0 is the word's lowest bit. -/
theorem test_decodeTableWord : decodeTableWord 16 0x1345 = some (.jpAddr 0x345) ∧ decodeTableWord 16 0xF133 = some (.ldBVx 1) := by decide

/-! ### Fetch, advance and decode (vectors X) -/

theorem test_fetch_last_X1 : stepsTo 0x1200 (at_ 0x1200 (atPc 0xFFE State.reset)) (atPc 0x200) = true := by decide +kernel
theorem test_fetch_fault_X2 : faultsAt (atPc 0xFFF State.reset) .fetchOutOfRange 0xFFF = true := by decide +kernel
theorem test_fetch_odd_X4 : stepsTo 0x6042 (at_ 0x6042 (atPc 0x201 State.reset)) (fun s => atPc 0x203 (s.setV 0 0x42)) = true := by
  decide +kernel
theorem test_zero_word_is_cls_X5 : nextIs (step State.reset) (fun t => t.pc == 0x202 && t.fb == 0) = true := by decide +kernel
theorem test_faulted_core_X16 :
    step { State.reset with status := .faulted .stackUnderflow 0x210 } = .fault (.coreFaulted .stackUnderflow 0x210) := rfl
theorem test_withFetchWord : nextIs (step (State.reset.withFetchWord 16 0x6A07)) (fun t => t.v 0xA == 7 && t.pc == 0x202) = true := by
  decide +kernel
theorem test_withFetchWord_faulted :
    nextIs (step (State.withFetchWord { atPc 0xFFF State.reset with status := .faulted .fetchOutOfRange 0xFFF } 16 0x6A07))
      (fun t => t.v 0xA == 7 && t.pc == 0x202) = true := by decide +kernel

/-! ### Control flow (vectors F) -/

theorem test_jp_F1 : vec 0x1345 [] (atPc 0x345) = true := by decide +kernel
theorem test_call_F3 : stepsTo 0x2210 (at_ 0x2210 (atPc 0x204 State.reset))
    (fun s => { atPc 0x210 s with sp := 1, stack := s.stack.set 0 0x206 }) = true := by decide +kernel
theorem test_call_overflow_F5 : faultsAt { at_ 0x2400 (atPc 0x300 State.reset) with sp := 16 } .stackOverflow 0x300 = true := by
  decide +kernel
theorem test_ret_underflow_F7 : faultsAt (at_ 0x00EE (atPc 0x210 State.reset)) .stackUnderflow 0x210 = true := by decide +kernel
theorem test_ret_F8 : stepsTo 0x00EE { start 0x00EE [] with sp := 16, stack := State.reset.stack.set 15 0x0ABC }
    (fun s => { atPc 0x0ABC s with sp := 15 }) = true := by decide +kernel
theorem test_se_byte_F9 : vec 0x3110 [(1, 0x10)] (atPc 0x204) = true := by decide +kernel
theorem test_se_byte_F10 : vec 0x3111 [(1, 0x10)] (atPc 0x202) = true := by decide +kernel
theorem test_sne_byte_F11 : vec 0x4111 [(1, 0x10)] (atPc 0x204) = true := by decide +kernel
theorem test_sne_byte_F12 : vec 0x4110 [(1, 0x10)] (atPc 0x202) = true := by decide +kernel
theorem test_se_reg_F15 : vec 0x5120 [(1, 0x33), (2, 0x34)] (atPc 0x202) = true := by decide +kernel
theorem test_se_reg_X10 : vec 0x5125 [(1, 0x33), (2, 0x33)] (atPc 0x204) = true := by decide +kernel
theorem test_sne_reg_X11 : vec 0x912F [(1, 0x01), (2, 0x02)] (atPc 0x204) = true := by decide +kernel
theorem test_sne_reg_F18 : vec 0x9330 [(3, 0x99)] (atPc 0x202) = true := by decide +kernel
theorem test_jp_v0_F19 : vec 0xB300 [(0, 0x10)] (atPc 0x310) = true := by decide +kernel
theorem test_jp_v0_F21 : vec 0xBFFF [(0, 0xFF)] (atPc 0x10FE) = true := by decide +kernel

/-! ### ALU (vectors A) -/

theorem test_ld_byte_A1 : vec 0x6AEA [] (on [(0xA, 0xEA)]) = true := by decide +kernel
theorem test_add_byte_A3 : vec 0x7102 [(1, 0xFF)] (on [(1, 0x01)]) = true := by decide +kernel
theorem test_add_byte_A5 : vec 0x7FFF [(0xF, 0x01)] (on [(0xF, 0x00)]) = true := by decide +kernel
theorem test_ld_reg_A6 : vec 0x8120 [(2, 0x5A)] (on [(1, 0x5A)]) = true := by decide +kernel
theorem test_or_A7 : vec 0x8121 [(1, 0xF0), (2, 0x3C), (0xF, 0x55)] (on [(1, 0xFC)]) = true := by decide +kernel
theorem test_and_A8 : vec 0x8122 [(1, 0xF0), (2, 0x3C), (0xF, 0x55)] (on [(1, 0x30)]) = true := by decide +kernel
theorem test_xor_A9 : vec 0x8123 [(1, 0xF0), (2, 0x3C), (0xF, 0x55)] (on [(1, 0xCC)]) = true := by decide +kernel
theorem test_add_A12 : vec 0x8124 [(1, 0xFF), (2, 0x01)] (on [(1, 0x00), (0xF, 0x01)]) = true := by decide +kernel
theorem test_add_vf_A17 : vec 0x8F14 [(0xF, 0xFF), (1, 0x02)] (on [(0xF, 0x01)]) = true := by decide +kernel
theorem test_sub_A22 : vec 0x8125 [(1, 0x03), (2, 0x05)] (on [(1, 0xFE), (0xF, 0x00)]) = true := by decide +kernel
theorem test_sub_vf_A25 : vec 0x8F15 [(0xF, 0x09), (1, 0x04)] (on [(0xF, 0xFD)]) = true := by decide +kernel
theorem test_shr_X12 : vec 0x8176 [(1, 0x05), (7, 0x99)] (on [(1, 0x02), (0xF, 0x01)]) = true := by decide +kernel
theorem test_shr_vf_A30 : vec 0x8F06 [(0xF, 0x03)] (on [(0xF, 0x00)]) = true := by decide +kernel
theorem test_subn_A32 : vec 0x8127 [(1, 0x03), (2, 0x05)] (on [(1, 0x02), (0xF, 0x01)]) = true := by decide +kernel
theorem test_subn_vf_A36 : vec 0x81F7 [(1, 0x03), (0xF, 0x05)] (on [(1, 0xFE), (0xF, 0x01)]) = true := by decide +kernel
theorem test_shl_A37 : vec 0x810E [(1, 0x81)] (on [(1, 0x02), (0xF, 0x01)]) = true := by decide +kernel
theorem test_shl_vf_A40 : vec 0x8F0E [(0xF, 0x81)] (on [(0xF, 0x02)]) = true := by decide +kernel
/-- The draw is a free value, so the masking is tested on the operation that takes it. -/
theorem test_rnd_A42 : (State.reset.rnd 0xAB 1 0x0F).v 1 = 0x0B := by decide

/-! ### Index and memory (vectors M) -/

theorem test_ld_i_M1 : vec 0xA300 [] (fun s => { atPc 0x202 s with I := 0x300 }) = true := by decide +kernel
theorem test_add_i_M3 : stepsTo 0xF11E { start 0xF11E [(1, 0x01)] with I := 0x0FFF } (fun s => { atPc 0x202 s with I := 0x1000 }) = true := by
  decide +kernel
theorem test_add_i_M4 : stepsTo 0xF11E { start 0xF11E [(1, 0x02)] with I := 0xFFFF } (fun s => { atPc 0x202 s with I := 0x0001 }) = true := by
  decide +kernel
theorem test_ld_f_M6 : vec 0xF129 [(1, 0x0F)] (fun s => { atPc 0x202 s with I := 0x009B }) = true := by decide +kernel
theorem test_ld_f_M8 : vec 0xF129 [(1, 0xFF)] (fun s => { atPc 0x202 s with I := 0x054B }) = true := by decide +kernel
theorem test_ld_b_E6 : nextIs (step { start 0xF133 [(1, 0xEA)] with I := 0x300 })
    (fun t => t.peeks 0x2FF 5 == [0, 2, 3, 4, 0] && t.I == 0x300 && t.pc == 0x202) = true := by decide +kernel
theorem test_ld_b_M13 : faultsAt { start 0xF133 [(1, 0x09)] with I := 0xFFE } .memOutOfRange 0x200 = true := by decide +kernel
theorem test_ld_mem_M15 : nextIs (step { start 0xF255 [(0, 0x11), (1, 0x22), (2, 0x33), (3, 0x44)] with I := 0x400 })
    (fun t => t.peeks 0x3FF 5 == [0, 0x11, 0x22, 0x33, 0] && t.I == 0x400) = true := by decide +kernel
theorem test_ld_mem_M18 : faultsAt { start 0xFF55 [] with I := 0xFF1 } .memOutOfRange 0x200 = true := by decide +kernel
theorem test_load_M20 : stepsTo 0xF265 { (start 0xF265 []).pokes 0x300 [2, 3, 4, 5] with I := 0x300 } (on [(0, 2), (1, 3), (2, 4)]) = true := by
  decide +kernel
theorem test_load_M22 : faultsAt { start 0xFF65 [] with I := 0xFF1 } .memOutOfRange 0x200 = true := by decide +kernel
/-- Writing back what an unlisted address reads as removes the entry: equal memories are equal data. -/
theorem test_memory_canonical : ((State.reset.poke 0x300 7).poke 0x300 0).mem = [] ∧ ((State.reset.poke 0x50 7).poke 0x50 0xF0).mem = [] := by
  decide

/-! ### Display (vectors D) -/

theorem test_cls_D1 : stepsTo 0x00E0 { start 0x00E0 [(0xF, 0x07)] with fb := BitVec.allOnes 2048 } (fun s => { atPc 0x202 s with fb := 0 }) = true := by
  decide +kernel
theorem test_drw_collide_D3 : stepsTo 0xD121 (drw 0xD121 [] [0xFF] [0, 1, 2, 3, 4, 5, 6, 7]) (fun s => { on [(0xF, 1)] s with fb := 0 }) = true := by
  decide +kernel
theorem test_drw_spill_D9 : stepsTo 0xD121 (drw 0xD121 [(1, 0x3E)] [0xFF] [])
    (fun s => { on [(0xF, 0)] s with fb := cells [62, 63, 64, 65, 66, 67, 68, 69] }) = true := by decide +kernel
/-- The parameter DRW_Y_WRAP, at both values. -/
theorem test_drw_wrap_D13_D16 :
    faultsAt (drw 0xD121 [(2, 0x20)] [0x80] []) .fbOutOfRange 0x200 = true ∧
    stepsTo 0xD121 (wrap32 (drw 0xD121 [(2, 0x3F)] [0x80] [])) (fun s => { on [(0xF, 0)] s with fb := cells [1984] }) = true := by
  decide +kernel
/-- Which of two faults is reported, and a draw of the glyph 5. -/
theorem test_drw_D23_D24 :
    faultsAt { (drw 0xD122 [(2, 0x20)] [] []).pokes 0xFFF [0x80] with I := 0xFFF } .memOutOfRange 0x200 = true ∧
    stepsTo 0xD125 { start 0xD125 [] with I := 0x69 } (fun s => { on [(0xF, 0)] s with
      fb := cells [0, 1, 2, 3, 64, 128, 129, 130, 131, 195, 256, 257, 258, 259] }) = true := by decide +kernel

/-! ### Keys and timers (vectors K) -/

theorem test_skp_K1 : stepsTo 0xE19E (keys [5] (start 0xE19E [(1, 0x05)])) (atPc 0x204) = true := by decide +kernel
theorem test_skp_K5 : faultsAt (start 0xE19E [(1, 0x10)]) .keyOutOfRange 0x200 = true := by decide +kernel
theorem test_sknp_K3 : vec 0xE1A1 [(1, 0x05)] (atPc 0x204) = true := by decide +kernel
theorem test_sknp_K4 : stepsTo 0xE1A1 (keys [5] (start 0xE1A1 [(1, 0x05)])) (atPc 0x202) = true := by decide +kernel
theorem test_wait_K8 : stepsTo 0xF50A (keys [0xF] (start 0xF50A [])) (atPc 0x200) = true := by decide +kernel
theorem test_ld_dt_read_K14 : stepsTo 0xF307 { start 0xF307 [] with DT := 0x3C } (on [(3, 0x3C)]) = true := by decide +kernel
theorem test_ld_dt_K15 : vec 0xF115 [(1, 0x3C)] (fun s => { atPc 0x202 s with DT := 0x3C }) = true := by decide +kernel
theorem test_ld_st_K16 : vec 0xF218 [(2, 0x05)] (fun s => { atPc 0x202 s with ST := 0x05 }) = true := by decide +kernel
/-- K9, K12: one eligible key, so whatever the choice is, it is that key. -/
theorem test_wait_K9_K12 (c : Nat) :
    State.waitKeys (lastF (keys [0xF] State.reset)) = [0xF] ∧ State.waitKeys (keys [2, 0xF] State.reset) = [2] ∧
    ((State.reset.waitKey c 5 [0xF]).v 5 = 0x0F) := by
  refine ⟨by decide, by decide, ?_⟩
  have := chooseKey_mem c 0xF []
  simp only [List.mem_singleton] at this
  simp only [State.waitKey, this]; decide
theorem test_tick_K17_K18 : (State.tick { State.reset with DT := 0x01 }).DT = 0x00 ∧ (State.tick { State.reset with ST := 0x02 }).ST = 0x01 ∧
    (State.tick { State.reset with ST := 0x02 }).DT = 0x00 := by decide

/-! ### The null handler (vector X13) -/

theorem test_null_0 : vec 0x00E1 [] (atPc 0x202) = true := by decide +kernel
theorem test_null_8 : vec 0x8008 [] (atPc 0x202) = true := by decide +kernel
theorem test_null_E : vec 0xE1A2 [] (atPc 0x202) = true := by decide +kernel
theorem test_null_F : vec 0xF1FF [] (atPc 0x202) = true := by decide +kernel

/-! ### Reset and ROM load (vectors B) -/

theorem test_load_rom_E9 : nextIs (transact (.loadRom [0x12, 0x34, 0x56]) State.reset)
    (fun t => t.peeks 0x1FF 5 == [0, 0x12, 0x34, 0x56, 0] && t.pc == 0x200) = true := by decide +kernel
theorem test_load_rom_B3 : transact (.loadRom (List.replicate 3585 0)) State.reset = .refused .romTooLarge := by
  simp only [transact, State.loadRom, List.length_replicate]; rfl
/-- U9, R257: a second load is refused although the first changed no byte (B4), and so is one after a cycle that left all as it was
but for `loadOpen`. RESET lets one come again (B1). -/
theorem test_load_rom_once_U9 : nextIs (transact (.loadRom []) State.reset) (fun t => t.mem == [] && t.loadOpen == false) = true ∧
    refusedIs (transactAll [.loadRom [], .loadRom [1]] State.reset) .loadRomNotAtReset = true ∧
    refusedIs (transact (.loadRom [1]) State.reset.closeLoad) .loadRomNotAtReset = true ∧
    nextIs (transactAll [.loadRom [0], .tick, .reset, .loadRom [1]] State.reset) (fun t => t.peek 0x200 == 1) = true :=
  by decide +kernel

/-! ### Witnesses: concrete states and operands that meet the hypotheses of each obligation -/

theorem witness_ret_pops : ({ State.reset with sp := 1 } : State).sp.val = 0 + 1 ∧ 0 < 16 ∧
    ({ State.reset with sp := 16 } : State).sp.val = 15 + 1 ∧ 15 < 16 := by decide
theorem witness_ret_underflows : State.reset.sp.val = 0 := rfl
/-- F2: a jump to itself. -/
theorem witness_jp_self : let s := start 0x1200 []
    s.status = .running ∧ s.pc.toNat ≤ 0xFFE ∧ s.pc.toNat = (0x200 : Addr).toNat ∧
    s.peek s.pc.toNat ++ s.peek (s.pc.toNat + 1) = (0x1#4 ++ (0x200 : Addr) : Word) := by decide
theorem witness_call : State.reset.sp.val < 16 ∧ ({ State.reset with sp := 15 } : State).sp.val < 16 ∧
    ({ State.reset with sp := 16 } : State).sp.val = 16 := by decide
/-- E8. -/
theorem witness_call_then_ret : let s := (start 0x2210 []).pokes 0x210 [0x00, 0xEE]
    s.status = .running ∧ s.pc.toNat ≤ 0xFFE ∧ s.sp.val < 16 ∧ (0x210 : Addr).toNat ≤ 0xFFE ∧
    s.peek s.pc.toNat ++ s.peek (s.pc.toNat + 1) = (0x2#4 ++ (0x210 : Addr) : Word) ∧
    s.peek (0x210 : Addr).toNat ++ s.peek ((0x210 : Addr).toNat + 1) = (0x0#4 ++ (0x0E : Byte) ++ 0xE#4 : Word) := by decide
/-- The hypotheses of the ALU statements on register numbers: a register that is neither x nor VF, and x not VF. -/
theorem witness_alu_registers : (2 : Nibble) ≠ 1 ∧ (2 : Nibble) ≠ 0xF ∧ (1 : Nibble) ≠ 0xF := by decide
theorem witness_sub_flag : (1 : Byte) = (if ((regs [(1, 5), (2, 3)]).v 1).toNat > ((regs [(1, 5), (2, 3)]).v 2).toNat then 1 else 0) ∧
    (0 : Byte) = (if ((regs [(1, 5), (2, 5)]).v 1).toNat > ((regs [(1, 5), (2, 5)]).v 2).toNat then 1 else 0) := by decide
theorem witness_subn_flag : (1 : Byte) = (if ((regs [(1, 3), (2, 5)]).v 2).toNat > ((regs [(1, 3), (2, 5)]).v 1).toNat then 1 else 0) ∧
    (0 : Byte) = (if ((regs [(1, 5), (2, 5)]).v 2).toNat > ((regs [(1, 5), (2, 5)]).v 1).toNat then 1 else 0) := by decide
/-- M12 and M13, and a byte outside the stored ones. -/
theorem witness_ld_b : let s : State := { State.reset with I := 0xFFD }
    s.I.toNat + 2 ≤ 0xFFF ∧ s.MemOk ∧ 0xFFC < s.ea 0 ∧ s.ea 0 + 3 ≤ 0x1000 ∧
    ({ State.reset with I := 0xFFE } : State).I.toNat + 2 > 0xFFF := by decide
/-- M17 and M18, and a byte outside the stored ones. -/
theorem witness_ld_mem : let s : State := { State.reset with I := 0xFF0 }
    s.I.toNat + (0xF : Nibble).toNat ≤ 0xFFF ∧ s.MemOk ∧ (0xF : Nibble).toNat ≤ (0xF : Nibble).toNat ∧ 0xFEF < s.ea 0 ∧
    s.ea 0 + ((0xF : Nibble).toNat + 1) ≤ 0x1000 ∧
    ({ State.reset with I := 0xFF1 } : State).I.toNat + (0xF : Nibble).toNat > 0xFFF := by decide
/-- M21 and M22. -/
theorem witness_load : ({ State.reset with I := 0xFF0 } : State).I.toNat + (0xF : Nibble).toNat ≤ 0xFFF ∧
    ({ State.reset with I := 0xFF1 } : State).I.toNat + (0xF : Nibble).toNat > 0xFFF := by decide

/-- D11: the sprite's one set bit targets the last cell, 2047. -/
def lastCell : State := drw 0xD121 [(1, 0x3F), (2, 0x1F)] [0x80] []

theorem lastCell_hits (c : Nat) : lastCell.SpriteHits 1 2 1 c ↔ c = 2047 := by
  rw [← State.mem_sprite_iff,
    show spriteCells (startColumn (lastCell.v 1)) (startRow lastCell.params.drwYWrap (lastCell.v 2))
      (lastCell.peeks (lastCell.ea 0) (1 : Nibble).toNat) = [2047] by decide +kernel]
  exact List.mem_singleton

/-- Whatever is on the screen. -/
theorem lastCell_hits_fb (fb : BitVec 2048) (c : Nat) : ({ lastCell with fb := fb } : State).SpriteHits 1 2 1 c ↔ c = 2047 :=
  have h (s : State) : ({ s with fb := fb } : State).SpriteHits 1 2 1 c ↔ s.SpriteHits 1 2 1 c := Iff.rfl
  (h lastCell).trans (lastCell_hits c)

theorem witness_drw : ((1 : Nibble).toNat = 0 ∨ lastCell.I.toNat + ((1 : Nibble).toNat - 1) ≤ 0xFFF) ∧
    (∀ c, lastCell.SpriteHits 1 2 1 c → c ≤ 2047) ∧ lastCell.SpriteHits 1 2 1 2047 ∧ ¬ lastCell.SpriteHits 1 2 1 0 ∧
    (∀ c, lastCell.SpriteHits 1 2 1 c → lastCell.cell c = false) := by
  refine ⟨by decide +kernel, fun c h => ?_, (lastCell_hits _).2 rfl, fun h => ?_, fun c h => ?_⟩
  · rw [lastCell_hits] at h; omega
  · rw [lastCell_hits] at h; cases h
  · rw [lastCell_hits] at h; subst h; decide +kernel

/-- The same, with that cell on. -/
theorem witness_drw_collision : ∃ c, ({ lastCell with fb := cells [2047] } : State).SpriteHits 1 2 1 c ∧
    ({ lastCell with fb := cells [2047] } : State).cell c = true :=
  ⟨2047, (lastCell_hits_fb _ _).2 rfl, by decide +kernel⟩

/-- D22: row 1 lies at 0x1000. And D12: the second set bit targets cell 2048. -/
theorem witness_drw_faults : ((2 : Nibble).toNat ≠ 0 ∧ ({ State.reset with I := 0xFFF } : State).I.toNat + ((2 : Nibble).toNat - 1) > 0xFFF) ∧
    (let s := drw 0xD121 [(1, 0x3F), (2, 0x1F)] [0xC0] []
     ((1 : Nibble).toNat = 0 ∨ s.I.toNat + ((1 : Nibble).toNat - 1) ≤ 0xFFF) ∧ ∃ c, s.SpriteHits 1 2 1 c ∧ c > 2047) := by
  refine ⟨by decide, by decide +kernel, 2048, ?_, by decide⟩
  rw [← State.mem_sprite_iff]; decide +kernel

/-- The first draw of D11 leaves a running state; its targeted cell was off. -/
theorem witness_draw_twice : (1 : Nibble) ≠ 0xF ∧ (2 : Nibble) ≠ 0xF ∧ lastCell.status = .running ∧
    (∃ t, exec (.drwVxVyN 1 2 1) lastCell = .next t ∧ t.status = .running) ∧
    ∃ c, lastCell.SpriteHits 1 2 1 c ∧ lastCell.cell c = false := by
  refine ⟨by decide, by decide, rfl, ?_, 2047, (lastCell_hits _).2 rfl, by decide +kernel⟩
  obtain ⟨t, h, h'⟩ := of_nextIs (o := exec (.drwVxVyN 1 2 1) lastCell) (p := fun t => decide (t.status = .running)) (by decide +kernel)
  exact ⟨t, h, of_decide_eq_true h'⟩

/-- The same where the targeted cell was on. -/
theorem witness_draw_twice_on : ∀ c, ({ lastCell with fb := cells [2047] } : State).SpriteHits 1 2 1 c →
    ({ lastCell with fb := cells [2047] } : State).cell c = true := by
  intro c h
  rw [show c = 2047 from (lastCell_hits_fb _ c).1 h]; decide +kernel

theorem witness_key_number : ((regs [(1, 0x0F)]).v 1).toNat = (15 : Fin 16).val ∧ ((regs []).v 1).toNat = (0 : Fin 16).val ∧
    ((regs [(1, 0x10)]).v 1).toNat > 0x0F := by decide
theorem witness_key_wait : (∀ k, ¬ State.reset.EndsWait k) ∧ (keys [0xE] State.reset).EndsWait 0xE ∧
    (keys [0] State.reset).EndsWait 0 ∧ ¬ (keys [0xF] State.reset).EndsWait 0xF ∧ (lastF (keys [0xF] State.reset)).EndsWait 0xF := by
  refine ⟨fun k h => ?_, by decide, by decide, by decide, by decide⟩
  have := State.lt_of_endsWait _ h
  interval_cases k <;> exact absurd h (by decide)

theorem witness_unmatched : (lowNibble 0x001 ≠ 0x0 ∧ lowNibble 0x001 ≠ 0xE) ∧
    (0x8 ≤ (lowNibble 0x008).toNat ∧ (lowNibble 0x00D).toNat ≤ 0xD) ∧ lowNibble 0x00F = 0xF ∧
    (lowNibble 0x100 ≠ 0x1 ∧ lowNibble 0x100 ≠ 0xE) ∧
    lowByte 0x106 ∉ ([0x07, 0x0A, 0x15, 0x18, 0x1E, 0x29, 0x33, 0x55, 0x65] : List Byte) := by decide
theorem witness_null_cycle : let s := start 0x00E1 []
    s.status = .running ∧ s.pc.toNat ≤ 0xFFE ∧ s.peek s.pc.toNat ++ s.peek (s.pc.toNat + 1) = (0x00E1 : Word) ∧
    decodeWord 0x00E1 ∈ [Instr.nop0 0x0E1, .nop8 0x0E1, .nopE 0x0E1, .nopF 0x0E1] := by decide

/-- A handler that ends running, and one that faults (RET with sp = 0), at the last fetchable pc. -/
theorem witness_cycle_runs : let s := at_ 0x00E0 (atPc 0xFFE State.reset)
    s.status = .running ∧ s.pc.toNat ≤ 0xFFE ∧
    ∃ t, exec (decodeWord (s.peek s.pc.toNat ++ s.peek (s.pc.toNat + 1))) s = .next t ∧ t.status = .running := by
  intro s
  obtain ⟨t, h, h'⟩ := of_nextIs (o := exec (decodeWord (s.peek s.pc.toNat ++ s.peek (s.pc.toNat + 1))) s)
    (p := fun t => decide (t.status = .running)) (by decide +kernel)
  exact ⟨rfl, by decide, t, h, of_decide_eq_true h'⟩
theorem witness_cycle_faults : let s := at_ 0x00EE (atPc 0xFFE State.reset)
    s.status = .running ∧ s.pc.toNat ≤ 0xFFE ∧
    ∃ t, exec (decodeWord (s.peek s.pc.toNat ++ s.peek (s.pc.toNat + 1))) s = .next t ∧ t.status ≠ .running := by
  intro s
  obtain ⟨t, h, h'⟩ := of_nextIs (o := exec (decodeWord (s.peek s.pc.toNat ++ s.peek (s.pc.toNat + 1))) s)
    (p := fun t => decide (t.status ≠ .running)) (by decide +kernel)
  exact ⟨rfl, by decide, t, h, of_decide_eq_true h'⟩

theorem witness_fetch_out_of_range : (atPc 0xFFF State.reset).status = .running ∧ (atPc 0xFFF State.reset).pc.toNat > 0xFFE := by decide
theorem witness_faulted_core : ({ State.reset with status := .faulted .keyOutOfRange 0x200 } : State).status = .faulted .keyOutOfRange 0x200 := rfl
theorem witness_precise : ∃ s t : State, s.status = .running ∧ step s = .next t ∧ t.status ≠ .running := by
  obtain ⟨t, h, h'⟩ := of_nextIs (o := step (atPc 0xFFF State.reset)) (p := fun t => decide (t.status ≠ .running)) (by decide +kernel)
  exact ⟨_, t, rfl, h, of_decide_eq_true h'⟩
theorem witness_handlers : State.reset.status = .running := rfl

/-- LD DT,V1 moves DT, LD ST,V2 moves ST. -/
theorem witness_timers_move : (∃ s t, step s = .next t ∧ t.DT ≠ s.DT) ∧ ∃ s t, step s = .next t ∧ t.ST ≠ s.ST := by
  refine ⟨⟨start 0xF115 [(1, 0x3C)], ?_⟩, start 0xF218 [(2, 5)], ?_⟩
  · obtain ⟨t, h, h'⟩ := of_nextIs (o := step (start 0xF115 [(1, 0x3C)])) (p := fun t => decide (t.DT ≠ (start 0xF115 [(1, 0x3C)]).DT))
      (by decide +kernel)
    exact ⟨t, h, of_decide_eq_true h'⟩
  · obtain ⟨t, h, h'⟩ := of_nextIs (o := step (start 0xF218 [(2, 5)])) (p := fun t => decide (t.ST ≠ (start 0xF218 [(2, 5)]).ST))
      (by decide +kernel)
    exact ⟨t, h, of_decide_eq_true h'⟩

/-- An instruction that leaves status as it is, and whose register changes. -/
theorem witness_register_changes : ∃ t, exec (.ldVxByte 1 5) State.reset = .next t ∧ t.status = State.reset.status ∧
    t.v 1 ≠ State.reset.v 1 := ⟨_, rfl, rfl, by decide⟩
theorem witness_draws_move : (∃ t, exec (.rndVxByte 1 0x0F) State.reset = .next t ∧ t.draws ≠ State.reset.draws) ∧
    ∃ t, exec (.ldVxK 5) (keys [7] State.reset) = .next t ∧ t.draws ≠ (keys [7] State.reset).draws := by
  refine ⟨⟨_, rfl, by decide⟩, _, rfl, ?_⟩
  rw [show (keys [7] State.reset).waitKeys = [7] by decide]; simp [State.waitKey]
theorem witness_index_changes : (∃ t, exec (.ldIAddr 5) State.reset = .next t ∧ t.I ≠ State.reset.I) ∧
    (∃ t, exec (.addIVx 1) (regs [(1, 5)]) = .next t ∧ t.I ≠ (regs [(1, 5)]).I) ∧
    ∃ t, exec (.ldFVx 1) State.reset = .next t ∧ t.I ≠ State.reset.I := ⟨⟨_, rfl, by decide⟩, ⟨_, rfl, by decide⟩, _, rfl, by decide⟩
/-- LD B,V1 changes 0xFFF, the last of its three bytes; LD [I],V1 changes 0xFFF, the last of its two. -/
theorem witness_memory_changes : (∃ s t, exec (.ldBVx 1) s = .next t ∧ t.peek 0xFFF ≠ s.peek 0xFFF) ∧
    ∃ s t, exec (.ldMemVx 1) s = .next t ∧ t.peek 0xFFF ≠ s.peek 0xFFF := by
  refine ⟨⟨{ regs [(1, 9)] with I := 0xFFD }, ?_⟩, { regs [(1, 9)] with I := 0xFFE }, ?_⟩
  · obtain ⟨t, h, h'⟩ := of_nextIs (o := exec (.ldBVx 1) { regs [(1, 9)] with I := 0xFFD })
      (p := fun t => decide (t.peek 0xFFF ≠ ({ regs [(1, 9)] with I := 0xFFD } : State).peek 0xFFF)) (by decide +kernel)
    exact ⟨t, h, of_decide_eq_true h'⟩
  · obtain ⟨t, h, h'⟩ := of_nextIs (o := exec (.ldMemVx 1) { regs [(1, 9)] with I := 0xFFE })
      (p := fun t => decide (t.peek 0xFFF ≠ ({ regs [(1, 9)] with I := 0xFFE } : State).peek 0xFFF)) (by decide +kernel)
    exact ⟨t, h, of_decide_eq_true h'⟩

/-- M23: LD [I],V1 over the next word, which becomes 0x1337 (k = 0, x = 1). -/
theorem witness_store_seen : let s : State := { start 0xF155 [(0, 0x13), (1, 0x37)] with I := 0x202 }
    s.MemOk ∧ s.status = .running ∧ decodeWord (s.peek s.pc.toNat ++ s.peek (s.pc.toNat + 1)) = .ldMemVx 1 ∧
    s.I.toNat + (1 : Nibble).toNat ≤ 0xFFF ∧ s.I.toNat + (0 : Nibble).toNat = s.pc.toNat + 2 ∧ (0 : Nibble).toNat + 1 ≤ (1 : Nibble).toNat ∧
    decodeWord (s.v 0 ++ s.v (0 + 1)) = .jpAddr 0x337 := by decide
/-- The other end: LD [I],VF at the last pc, over its own word too (k = 14, x = 15); the next word becomes RET, which faults. -/
theorem witness_store_seen_last : let s : State := at_ 0xFF55 { regs [(15, 0xEE)] with pc := 0xFFC, I := 0xFF0 }
    s.MemOk ∧ s.status = .running ∧ decodeWord (s.peek s.pc.toNat ++ s.peek (s.pc.toNat + 1)) = .ldMemVx 15 ∧
    s.I.toNat + (15 : Nibble).toNat ≤ 0xFFF ∧ s.I.toNat + (14 : Nibble).toNat = s.pc.toNat + 2 ∧
    (14 : Nibble).toNat + 1 ≤ (15 : Nibble).toNat ∧ decodeWord (s.v 14 ++ s.v (14 + 1)) = .ret := by decide
/-- LD B,V1 with the next word made of the hundreds and tens, and of the tens and units. -/
theorem witness_digits_seen : let s : State := { start 0xF133 [(1, 234)] with I := 0x202 }
    s.MemOk ∧ s.status = .running ∧ decodeWord (s.peek s.pc.toNat ++ s.peek (s.pc.toNat + 1)) = .ldBVx 1 ∧ s.I.toNat + 2 ≤ 0xFFF ∧
    (2 : Byte).toNat = (s.v 1).toNat / 100 ∧ (3 : Byte).toNat = (s.v 1).toNat / 10 % 10 ∧ (4 : Byte).toNat = (s.v 1).toNat % 10 ∧
    s.I.toNat = s.pc.toNat + 2 ∧ ({ s with I := 0x201 } : State).I.toNat + 1 = s.pc.toNat + 2 := by decide
/-- A jump's next state is running, and RET's with an empty stack is not, whatever state they start from. -/
theorem witness_store_seen_runs (t : State) (h : t.status = .running) : (∃ u, exec (.jpAddr 0x337) t = .next u ∧ u.status = .running) ∧
    (t.sp.val = 0 → ∃ u, exec .ret t = .next u ∧ u.status ≠ .running) := by
  refine ⟨⟨_, rfl, h⟩, fun hs => ⟨t.raiseFault .stackUnderflow, ?_, ?_⟩⟩
  · simp only [exec, execRet]; rw [State.ret_of_empty t.advance hs]; rfl
  · rw [State.raiseFault_status]; intro h'; cases h'

/-- A state that meets both invariants and has something listed, and a step from it. -/
theorem witness_invariants : (start 0xF155 [(0, 0x13)]).MemOk ∧ (start 0xF155 [(0, 0x13)]).PcOk ∧
    (∃ t, step { start 0xF155 [(0, 0x13)] with I := 0x300 } = .next t) ∧
    (∃ t, transact (.loadRom [1, 2]) State.reset = .next t) := by
  refine ⟨by decide, by decide, ?_, ?_⟩
  · obtain ⟨t, h, _⟩ := of_nextIs (o := step { start 0xF155 [(0, 0x13)] with I := 0x300 }) (p := fun _ => true) (by decide +kernel)
    exact ⟨t, h⟩
  · obtain ⟨t, h, _⟩ := of_nextIs (o := transact (.loadRom [1, 2]) State.reset) (p := fun _ => true) (by decide +kernel)
    exact ⟨t, h⟩
theorem witness_round_trip : (Instr.nop8 0x008).WellFormed ∧ (Instr.drwVxVyN 1 2 3).WellFormed := by decide
/-- The bounds of the reset contents: below and above the font, and the last address. -/
theorem witness_reset_values : (0x04F ≤ 0xFFF ∧ 0x04F < 0x050) ∧ (0x0A0 ≤ 0xFFF ∧ 0x09F < 0x0A0) ∧ (0xFFF ≤ 0xFFF ∧ 0x09F < 0xFFF) ∧
    2047 ≤ 2047 := by decide
theorem witness_load_rom : (List.replicate 3584 (0 : Byte)).length ≤ 3584 ∧
    State.reset = { State.resetWith State.reset.params with draws := State.reset.draws } ∧
    0 < (List.replicate 3584 (0 : Byte)).length ∧ 0x1FF < 0x200 ∧ 0x200 + (List.replicate 3584 (0 : Byte)).length ≤ 0x1000 ∧
    (List.replicate 3585 (0 : Byte)).length > 3584 ∧
    atPc 0x202 State.reset ≠ { State.resetWith (atPc 0x202 State.reset).params with draws := (atPc 0x202 State.reset).draws } := by
  refine ⟨by rw [List.length_replicate], rfl, by rw [List.length_replicate]; decide, by decide, by rw [List.length_replicate],
    by rw [List.length_replicate]; decide, fun h => absurd (congrArg State.pc h) (by decide)⟩
/-- A load, and a CYCLE, then the host's other transactions: the hypotheses of the clause that every load is refused after them. -/
theorem witness_load_once : (∃ t, transact (.loadRom []) State.reset = .next t ∧
      ∃ u, Transaction.reset ∉ [Transaction.setKey 3 true, .tick, .cycle] ∧ transactAll [.setKey 3 true, .tick, .cycle] t = .next u) ∧
    ∃ t, transact .cycle State.reset = .next t ∧ ∃ u, transactAll [] t = .next u := by
  constructor
  · obtain ⟨t, h, h'⟩ := of_nextIs (o := transact (.loadRom []) State.reset)
      (p := fun t => nextIs (transactAll [.setKey 3 true, .tick, .cycle] t) fun _ => true) (by decide +kernel)
    obtain ⟨u, hu, _⟩ := of_nextIs h'
    exact ⟨t, h, u, by decide, hu⟩
  · obtain ⟨t, h, _⟩ := of_nextIs (o := transact .cycle State.reset) (p := fun _ => true) (by decide +kernel)
    exact ⟨t, h, t, rfl⟩
theorem witness_zeroed : State.reset.status = .running ∧ State.reset.pc.toNat ≤ 0xFFE ∧ State.reset.peek State.reset.pc.toNat = 0 ∧
    State.reset.peek (State.reset.pc.toNat + 1) = 0 := by decide

end Sys2Proof.Tests
end

section
/-! PROOFS. The frame rule over all instructions (00_scope.md R15, 10_state.md R20): a frame rule for each state operation, what the
end of a handler can be, and from them what `exec` answers for every instruction. -/

namespace Sys2Proof.Machine

section
variable {s t : State} {l : List Field} {cs : List FaultCode}

/-! ### Frame rules of the state operations -/

theorem frame_advance (s : State) : Frame [.pc] s s.advance := fun f hf => by
  cases f <;> simp_all [Unchanged]

theorem frame_jump (s : State) (w : Word) : Frame [.pc] s (s.jump w) := fun f hf => by
  cases f <;> simp_all [Unchanged]

theorem frame_rewind (s : State) : Frame [.pc] s s.rewind := fun f hf => by
  cases f <;> simp_all [Unchanged]

theorem frame_skipIf (s : State) (c : Bool) : Frame [.pc] s (s.skipIf c) := fun f hf => by
  cases f <;> simp_all [Unchanged]

theorem frame_setV (s : State) (x : Nibble) (b : Byte) : Frame [.V] s (s.setV x b) := fun f hf => by
  cases f <;> simp_all [Unchanged]

theorem frame_setI (s : State) (w : Word) : Frame [.I] s (s.setI w) := fun f hf => by
  cases f <;> simp_all [Unchanged]

theorem frame_setDT (s : State) (b : Byte) : Frame [.DT] s (s.setDT b) := fun f hf => by
  cases f <;> simp_all [Unchanged]

theorem frame_setST (s : State) (b : Byte) : Frame [.ST] s (s.setST b) := fun f hf => by
  cases f <;> simp_all [Unchanged]

theorem frame_clearFb (s : State) : Frame [.fb] s s.clearFb := fun f hf => by
  cases f <;> simp_all [Unchanged]

theorem frame_flipCell (s : State) (c : Nat) : Frame [.fb] s (s.flipCell c) := fun f hf => by
  cases f <;> simp_all [Unchanged]

theorem frame_drawn (s : State) : Frame [.draws] s s.drawn := fun f hf => by
  cases f <;> simp_all [Unchanged]

theorem frame_pokes (s : State) (a : Nat) (bs : List Byte) : Frame [.mem] s (s.pokes a bs) := fun f hf => by
  cases f <;> simp_all [Unchanged]

theorem frame_raiseFault (s : State) (c : FaultCode) : Frame [.status] s (s.raiseFault c) := fun f hf => by
  cases f <;> simp_all [Unchanged]

/-- Two writes one after the other. -/
theorem Frame.comp {u : State} {l' : List Field} (h : Frame l s t) (h' : Frame l' t u) : Frame (l ++ l') s u :=
  (h.mono fun _ => List.mem_append_left l').trans (h'.mono fun _ => List.mem_append_right l)

/-- Every meaning begins with the cycle's advance (40_cycle.md R102). -/
theorem Frame.of_advance (h : Frame l s.advance t) : Frame (.pc :: l) s t := (frame_advance s).comp h

/-- A frame that names `status` and a status that is as before. -/
theorem Frame.of_status_eq (h : Frame (.status :: l) s t) (hs : t.status = s.status) : Frame l s t := fun f hf => by
  by_cases he : f = .status
  · rw [he]; exact hs
  · exact h f fun hm => (List.mem_cons.1 hm).elim he hf

/-- A skip moves pc alone, whatever its condition (41_control_flow.md R124). -/
theorem frame_advance_skipIf (s : State) (c : Bool) : Frame [.pc] s (s.advance.skipIf c) :=
  (frame_advance s).trans (frame_skipIf _ c)

theorem frame_advance_jump (s : State) (w : Word) : Frame [.pc] s (s.advance.jump w) :=
  (frame_advance s).trans (frame_jump _ w)

theorem frame_flagThen (s : State) (b : Byte) (x : Nibble) (g : State → Byte) : Frame [.V] s (s.flagThen b x g) :=
  (frame_setV s 0xF b).trans (frame_setV _ x _)

theorem frame_loadRegs (s : State) (k : Nat) (bs : List Byte) : Frame [.V] s (s.loadRegs k bs) := by
  induction bs generalizing s k with
  | nil => exact .refl _ _
  | cons b bs ih => exact (frame_setV s _ b).trans (ih _ _)

theorem frame_collideIf (s : State) (c : Bool) : Frame [.V] s (s.collideIf c) := by
  cases c with
  | false => exact .refl _ _
  | true => exact frame_setV s 0xF 1

theorem frame_drawCells (s : State) (cells : List Nat) : Frame [.V, .fb] s (s.drawCells cells) := by
  induction cells generalizing s with
  | nil => exact .refl _ _
  | cons c cells ih => exact ((frame_collideIf s _).comp (frame_flipCell _ c)).trans (ih _)

/-- LD Vx,K waits, and moves pc alone, or takes a free value for a register (45_keys_timers.md R215, R216). -/
theorem frame_waitKey (s : State) (c : Nat) (x : Nibble) (keys : List Nat) :
    Frame [.pc, .V, .draws] s (s.waitKey c x keys) := by
  cases keys with
  | nil => exact (frame_rewind s).mono (by simp)
  | cons k ks => exact ((frame_setV s x _).comp (frame_drawn _)).mono (by simp)

/-! ### The operations that can fault -/

/-- What CALL's push can answer (41_control_flow.md R122). -/
theorem State.call_frame (s : State) (w : Word) :
    (∃ t, s.call w = .ok t ∧ Frame [.pc, .sp, .stack] s t) ∨ s.call w = .error .stackOverflow := by
  rcases Nat.lt_or_ge s.sp.val 16 with h | h
  · refine .inl ⟨_, s.call_of_lt w h, fun f hf => ?_⟩
    cases f <;> simp_all [Unchanged, State.peek, State.v, State.cell]
  · exact .inr (s.call_of_full w (by omega))

/-- What RET's pop can answer (R120). -/
theorem State.ret_frame (s : State) : (∃ t, s.ret = .ok t ∧ Frame [.pc, .sp] s t) ∨ s.ret = .error .stackUnderflow := by
  rcases s.sp_cases with h | ⟨k, h, hk⟩
  · exact .inr (s.ret_of_empty h)
  · refine .inl ⟨_, s.ret_of_succ h hk, fun f hf => ?_⟩
    cases f <;> simp_all [Unchanged, State.peek, State.v, State.cell]

/-- What DRW's drawing can answer (44_display.md R192, R195). -/
theorem State.drawSprite_frame (s : State) (xPos yPos : Nat) (rows : List Byte) :
    (∃ t, s.drawSprite xPos yPos rows = .ok t ∧ Frame [.V, .fb] s t) ∨
    s.drawSprite xPos yPos rows = .error .fbOutOfRange := by
  unfold State.drawSprite
  split
  · exact .inl ⟨_, rfl, ((frame_setV s 0xF 0).mono (by simp)).trans (frame_drawCells _ _)⟩
  · exact .inr rfl

/-! ### The end of a handler -/

/-- The handler answers a next state: it wrote only fields of `l`, or it raised one of the codes `cs` on the state at the start
of the cycle. -/
def HandlerEnds (l : List Field) (cs : List FaultCode) (s : State) (o : Host.Outcome State Fault Refusal) : Prop :=
  ∃ t, o = .next t ∧ (Frame l s t ∨ ∃ c ∈ cs, t = s.raiseFault c)

theorem HandlerEnds.next (h : Frame l s t) : HandlerEnds l cs s (.next t) := ⟨t, rfl, .inl h⟩

theorem HandlerEnds.settle_ok {r : Except FaultCode State} (hr : r = .ok t) (h : Frame l s t) :
    HandlerEnds l cs s (settle s r) := ⟨t, by rw [hr]; rfl, .inl h⟩

theorem HandlerEnds.settle_error {r : Except FaultCode State} {c : FaultCode} (hr : r = .error c) (hc : c ∈ cs) :
    HandlerEnds l cs s (settle s r) := ⟨s.raiseFault c, by rw [hr]; rfl, .inr ⟨c, hc, rfl⟩⟩

theorem execRet_ends (s : State) : HandlerEnds [.pc, .sp] [.stackUnderflow] s (execRet s) := by
  rcases s.advance.ret_frame with ⟨t, hr, ht⟩ | hr
  · exact .settle_ok hr (ht.of_advance.mono (by simp))
  · exact .settle_error hr (by simp)

theorem execCallAddr_ends (s : State) (nnn : Addr) :
    HandlerEnds [.pc, .sp, .stack] [.stackOverflow] s (execCallAddr nnn s) := by
  rcases s.advance.call_frame (zext16 nnn) with ⟨t, hr, ht⟩ | hr
  · exact .settle_ok hr (ht.of_advance.mono (by simp))
  · exact .settle_error hr (by simp)

/-- The end of LD B,Vx and of LD [I],Vx (43_index_memory.md R174, R176). -/
theorem memWrite_ends (s : State) (a : Nat) (bs : List Byte) :
    HandlerEnds [.pc, .mem] [.memOutOfRange] s (settle s (s.advance.memWrite a bs)) := by
  rcases s.advance.memWrite_cases a bs with ⟨-, hr⟩ | ⟨-, -, hr⟩
  · exact .settle_ok hr (frame_pokes _ a bs).of_advance
  · exact .settle_error hr (by simp)

theorem execLdVxMem_ends (s : State) (x : Nibble) :
    HandlerEnds [.pc, .V] [.memOutOfRange] s (execLdVxMem x s) := by
  unfold execLdVxMem
  rcases s.memRead_cases (s.ea 0) (x.toNat + 1) with ⟨-, hr⟩ | ⟨-, -, hr⟩ <;> rw [hr]
  · exact .settle_ok rfl (frame_loadRegs _ 0 _).of_advance
  · exact .settle_error rfl (by simp)

/-- The case split follows the handler: the sprite is read first, and drawn if the read did not fault (44_display.md R192, R238). -/
theorem execDrwVxVyN_ends (s : State) (x y n : Nibble) :
    HandlerEnds [.pc, .V, .fb] [.memOutOfRange, .fbOutOfRange] s (execDrwVxVyN x y n s) := by
  unfold execDrwVxVyN
  rcases s.memRead_cases (s.ea 0) n.toNat with ⟨-, hr⟩ | ⟨-, -, hr⟩ <;> rw [hr]
  · rcases s.advance.drawSprite_frame (startColumn (s.v x)) (startRow s.params.drwYWrap (s.v y))
      (s.peeks (s.ea 0) n.toNat) with ⟨t, hd, ht⟩ | hd
    · exact .settle_ok hd ht.of_advance
    · exact .settle_error hd (by simp)
  · exact .settle_error rfl (by simp)

/-- The end of SKP and of SKNP, which skip on `c` of the key's state (45_keys_timers.md R210 to R212). -/
theorem testKey_ends (s : State) (k : Byte) (c : Bool → Bool) : HandlerEnds [.pc] [.keyOutOfRange] s
    (settle s ((s.testKey k).map fun down => s.advance.skipIf (c down))) := by
  rcases s.testKey_cases k with ⟨-, hr⟩ | ⟨-, hr⟩ <;> rw [hr]
  · exact .settle_ok rfl (frame_advance_skipIf s _)
  · exact .settle_error rfl (by simp)

/-- What `exec` answers, for every instruction: a next state that differs only in the fields its rule writes (R15, R20), or a fault
of its own raised on the state at the start of the cycle (R231, R232). -/
theorem exec_ends (s : State) (i : Instr) : HandlerEnds i.writes i.faults s (exec i s) := by
  cases i with
  | cls => exact .next (frame_clearFb _).of_advance
  | ret => exact execRet_ends s
  | callAddr nnn => exact execCallAddr_ends s nnn
  | jpAddr _ | jpV0Addr _ => exact .next (frame_advance_jump s _)
  | seVxByte _ _ | sneVxByte _ _ | seVxVy _ _ | sneVxVy _ _ => exact .next (frame_advance_skipIf s _)
  | ldVxByte _ _ | addVxByte _ _ | ldVxVy _ _ | orVxVy _ _ | andVxVy _ _ | xorVxVy _ _ | ldVxDt _ =>
    exact .next (frame_setV _ _ _).of_advance
  | addVxVy _ _ | subVxVy _ _ | shrVx _ | subnVxVy _ _ | shlVx _ => exact .next (frame_flagThen _ _ _ _).of_advance
  | rndVxByte x _ => exact .next ((frame_setV _ x _).comp (frame_drawn _)).of_advance
  | drwVxVyN x y n => exact execDrwVxVyN_ends s x y n
  | skpVx _ => exact testKey_ends s _ id
  | sknpVx _ => exact testKey_ends s _ not
  | ldVxK x => exact .next ((frame_waitKey _ _ x _).of_advance.mono (by simp [Instr.writes]))
  | ldDtVx _ => exact .next (frame_setDT _ _).of_advance
  | ldStVx _ => exact .next (frame_setST _ _).of_advance
  | ldIAddr _ | addIVx _ | ldFVx _ => exact .next (frame_setI _ _).of_advance
  | ldBVx _ | ldMemVx _ => exact memWrite_ends s _ _
  | ldVxMem x => exact execLdVxMem_ends s x
  | nop0 _ | nop8 _ | nopE _ | nopF _ => exact .next (frame_advance s)

/-- What a handler that answered the next state `t` did. -/
theorem exec_next_cases {i : Instr} (h : exec i s = .next t) : Frame i.writes s t ∨ ∃ c ∈ i.faults, t = s.raiseFault c := by
  obtain ⟨u, hu, hends⟩ := exec_ends s i
  obtain rfl : t = u := by rw [h] at hu; cases hu; rfl
  exact hends

end

/-- Settles O41: a handler that raised no fault keeps the frame of its own fields, one that raised a fault wrote `status` alone; and
the second clause follows from the first. -/
theorem handlersWriteOnlyTheirFields : Obligations.HandlersWriteOnlyTheirFields := by
  intro i s t h
  have hframe : Frame (.status :: i.writes) s t := by
    rcases exec_next_cases h with hw | ⟨c, -, rfl⟩
    · exact hw.mono fun _ => List.mem_cons_of_mem _
    · exact (frame_raiseFault s c).mono (by simp)
  exact ⟨hframe, hframe.of_status_eq⟩

end Sys2Proof.Machine
end

section
/-! PROOFS. The state over all instructions (10_state.md): the bounds of pc and of the return addresses (R28), which registers
change (R24), which instructions write I (R29), and the values after reset (R42). -/

namespace Sys2Proof.Machine

section
variable {s a t : State} {P : State → Prop}

/-! ### What holds of every next state -/

/-- Every next state that `o` answers satisfies `P`. -/
def EveryNext (P : State → Prop) (o : Host.Outcome State Fault Refusal) : Prop := ∀ t, o = .next t → P t

theorem EveryNext.next (h : P t) : EveryNext P (.next t) := fun u hu => by cases hu; exact h

/-- A handler that may fault: the fault is raised on the state it began on (60_exceptions.md R232). -/
theorem EveryNext.settle {r : Except FaultCode State} (hfault : ∀ c, P (s.raiseFault c)) (hok : ∀ t, r = .ok t → P t) :
    EveryNext P (settle s r) := fun t h => by
  rcases settle_cases h with hr | ⟨c, -, rfl⟩
  · exact hok t hr
  · exact hfault c

/-- A field that is not in the instruction's column of R20 is as before. -/
theorem exec_unchanged {i : Instr} {f : Field} (hf : f ∉ i.writes) (hs : f ≠ .status) :
    EveryNext (fun t => Unchanged s t f) (exec i s) := fun t h =>
  (handlersWriteOnlyTheirFields i s t h).1 f (by simp [hf, hs])

/-! ### Where the operations that can fault end when they do not -/

theorem State.memRead_ok {base n : Nat} {bs : List Byte} (h : s.memRead base n = .ok bs) : bs = s.peeks base n := by
  rcases s.memRead_cases base n with ⟨-, hr⟩ | ⟨-, -, hr⟩ <;> rw [hr] at h <;> cases h
  rfl

theorem State.memWrite_ok {base : Nat} {bs : List Byte} (h : s.memWrite base bs = .ok t) : t = s.pokes base bs := by
  rcases s.memWrite_cases base bs with ⟨-, hr⟩ | ⟨-, -, hr⟩ <;> rw [hr] at h <;> cases h
  rfl

theorem State.drawSprite_ok {xPos yPos : Nat} {rows : List Byte} (h : s.drawSprite xPos yPos rows = .ok t) :
    t = (s.setVF 0).drawCells (spriteCells xPos yPos rows) := by
  unfold State.drawSprite at h
  split at h <;> cases h
  rfl

/-- DRW's handler (44_display.md R192), if it raises no fault. -/
theorem drw_ok {base n xPos yPos : Nat} (h : ((s.memRead base n).bind fun rows => a.drawSprite xPos yPos rows) = .ok t) :
    t = (a.setVF 0).drawCells (spriteCells xPos yPos (s.peeks base n)) := by
  cases hr : s.memRead base n with
  | error c => rw [hr] at h; cases h
  | ok rows => rw [hr] at h; rw [← State.memRead_ok hr]; exact State.drawSprite_ok h

/-- LD Vx,[I]'s handler (43_index_memory.md R178), if it raises no fault. -/
theorem ldVxMem_ok {base n : Nat} (h : ((s.memRead base n).map fun bs => a.loadRegs 0 bs) = .ok t) :
    t = a.loadRegs 0 (s.peeks base n) := by
  cases hr : s.memRead base n with
  | error c => rw [hr] at h; cases h
  | ok rows => rw [hr] at h; rw [← State.memRead_ok hr]; cases h; rfl

/-- SKP's and SKNP's handlers (45_keys_timers.md R210, R211), if they raise no fault: a skip, or none. -/
theorem testKey_ok {k : Byte} {c : Bool → Bool} (h : ((s.testKey k).map fun down => a.skipIf (c down)) = .ok t) :
    ∃ b, t = a.skipIf b := by
  cases hr : s.testKey k with
  | error e => rw [hr] at h; cases h
  | ok down => rw [hr] at h; cases h; exact ⟨c down, rfl⟩

/-! ### The bounds of pc and of the return addresses (R28) -/

/-- The bounds as they stand after the cycle's advance, when the fetch was from at most 0xFFE (40_cycle.md R101, R102): pc is then
itself a legal return address. -/
def State.PcAdvanced (a : State) : Prop := a.pc.toNat ≤ 0x1000 ∧ ∀ j : Fin 16, a.stack[j].toNat ≤ 0x1000

theorem State.PcOk.advance (h : s.PcOk) (hpc : s.pc.toNat ≤ 0xFFE) : s.advance.PcAdvanced := by
  obtain ⟨-, hstack⟩ := h
  exact ⟨by rw [State.advance_pc]; bv_omega, hstack⟩

/-- Most handlers write neither field. -/
theorem State.PcAdvanced.of_frame {l : List Field} (h : a.PcAdvanced) (hframe : Frame l a t) (hpc : .pc ∉ l := by decide)
    (hstack : .stack ∉ l := by decide) : t.PcOk := by
  obtain ⟨hle, hentries⟩ := h
  have hp : t.pc = a.pc := hframe .pc hpc
  have hs : t.stack = a.stack := hframe .stack hstack
  exact ⟨by rw [hp]; omega, by rw [hs]; exact hentries⟩

theorem State.PcAdvanced.jump (h : a.PcAdvanced) {w : Word} (hw : w.toNat ≤ 0x10FE) : (a.jump w).PcOk := by
  obtain ⟨-, hstack⟩ := h
  exact ⟨hw, hstack⟩

/-- A skip goes on to 0x1002 at most (41_control_flow.md R124). -/
theorem State.PcAdvanced.skipIf (h : a.PcAdvanced) (c : Bool) : (a.skipIf c).PcOk := by
  obtain ⟨hpc, hstack⟩ := h
  refine ⟨?_, by rw [State.skipIf_stack]; exact hstack⟩
  rw [State.skipIf_pc]
  split <;> bv_omega

/-- CALL pushes the advanced pc (R122). -/
theorem State.PcAdvanced.call (h : a.PcAdvanced) {w : Word} (hw : w.toNat ≤ 0x10FE) (ht : a.call w = .ok t) : t.PcOk := by
  obtain ⟨hpc, hstack⟩ := h
  rcases Nat.lt_or_ge a.sp.val 16 with hsp | hsp
  · rw [a.call_of_lt w hsp] at ht
    cases ht
    refine ⟨hw, fun j => ?_⟩
    simp only [Fin.getElem_fin, Vector.getElem_set]
    split
    · exact hpc
    · exact hstack j
  · rw [a.call_of_full w (by omega)] at ht
    cases ht

/-- RET's pc is a return address (R120). -/
theorem State.PcAdvanced.ret (h : a.PcAdvanced) (ht : a.ret = .ok t) : t.PcOk := by
  obtain ⟨-, hstack⟩ := h
  rcases a.sp_cases with hsp | ⟨k, hsp, hk⟩
  · rw [a.ret_of_empty hsp] at ht
    cases ht
  · rw [a.ret_of_succ hsp hk] at ht
    cases ht
    have hentry : a.stack[k].toNat ≤ 0x1000 := hstack ⟨k, hk⟩
    exact ⟨by simp only; omega, hstack⟩

theorem zext16_addr_le (nnn : Addr) : (zext16 nnn).toNat ≤ 0xFFF := by
  have := nnn.isLt
  rw [BitVec.toNat_setWidth]; omega

/-- The highest target of JP V0,addr is 0xFFF + 0xFF (R133). -/
theorem zext16_add_le (nnn : Addr) (b : Byte) : (zext16 nnn + zext16 b).toNat ≤ 0x10FE := by
  have := nnn.isLt
  have := b.isLt
  rw [BitVec.toNat_add, BitVec.toNat_setWidth, BitVec.toNat_setWidth]; omega

/-- LD Vx,K goes on, or takes the advance back (45_keys_timers.md R215). -/
theorem State.PcOk.waitKey (h : s.PcOk) (ha : s.advance.PcAdvanced) (c : Nat) (x : Nibble) (keys : List Nat) :
    (s.advance.waitKey c x keys).PcOk := by
  cases keys with
  | nil =>
    obtain ⟨hpc, hstack⟩ := h
    exact ⟨by rw [State.waitKey, State.rewind_pc, State.advance_pc, advance_rewind]; exact hpc, hstack⟩
  | cons k ks => exact ha.of_frame ((frame_setV _ x _).comp (frame_drawn _))

/-- Every instruction fetched from at most 0xFFE keeps the bounds. -/
theorem exec_pcOk (h : s.PcOk) (hpc : s.pc.toNat ≤ 0xFFE) (i : Instr) : EveryNext State.PcOk (exec i s) := by
  have ha := h.advance hpc
  have hfault (c : FaultCode) : (s.raiseFault c).PcOk := h
  cases i with
  | ret => exact .settle hfault fun t => ha.ret
  | callAddr nnn => exact .settle hfault fun t => ha.call ((zext16_addr_le nnn).trans (by decide))
  | jpAddr nnn => exact .next (ha.jump ((zext16_addr_le nnn).trans (by decide)))
  | jpV0Addr nnn => exact .next (ha.jump (zext16_add_le nnn _))
  | seVxByte _ _ | sneVxByte _ _ | seVxVy _ _ | sneVxVy _ _ => exact .next (ha.skipIf _)
  | skpVx _ =>
    refine .settle hfault fun t ht => ?_
    obtain ⟨b, rfl⟩ := testKey_ok (c := id) ht
    exact ha.skipIf b
  | sknpVx _ =>
    refine .settle hfault fun t ht => ?_
    obtain ⟨b, rfl⟩ := testKey_ok (c := not) ht
    exact ha.skipIf b
  | ldVxK x => exact .next (h.waitKey ha _ x _)
  | cls => exact .next (ha.of_frame (frame_clearFb _))
  | ldVxByte _ _ | addVxByte _ _ | ldVxVy _ _ | orVxVy _ _ | andVxVy _ _ | xorVxVy _ _ | ldVxDt _ =>
    exact .next (ha.of_frame (frame_setV _ _ _))
  | addVxVy _ _ | subVxVy _ _ | shrVx _ | subnVxVy _ _ | shlVx _ => exact .next (ha.of_frame (frame_flagThen _ _ _ _))
  | rndVxByte x _ => exact .next (ha.of_frame ((frame_setV _ x _).comp (frame_drawn _)))
  | drwVxVyN _ _ _ =>
    refine .settle hfault fun t ht => ?_
    rw [drw_ok ht]
    exact ha.of_frame ((frame_setV _ 0xF 0).comp (frame_drawCells _ _))
  | ldDtVx _ => exact .next (ha.of_frame (frame_setDT _ _))
  | ldStVx _ => exact .next (ha.of_frame (frame_setST _ _))
  | ldIAddr _ | addIVx _ | ldFVx _ => exact .next (ha.of_frame (frame_setI _ _))
  | ldBVx _ | ldMemVx _ =>
    refine .settle hfault fun t ht => ?_
    rw [State.memWrite_ok ht]
    exact ha.of_frame (frame_pokes _ _ _)
  | ldVxMem _ =>
    refine .settle hfault fun t ht => ?_
    rw [ldVxMem_ok ht]
    exact ha.of_frame (frame_loadRegs _ 0 _)
  | nop0 _ | nop8 _ | nopE _ | nopF _ => exact .next (ha.of_frame (.refl _ []))

/-! ### Which registers change (R24) -/

theorem State.v_flagThen_other {flag : Byte} {x r : Nibble} {g : State → Byte} (hx : r ≠ x) (hf : r ≠ 0xF) :
    (s.flagThen flag x g).v r = s.v r := by rw [State.v_flagThen, if_neg hx, if_neg hf]

theorem State.v_setV_other {x r : Nibble} {b : Byte} (h : r ≠ x) : (s.setV x b).v r = s.v r := by
  rw [State.v_setV, if_neg h]

/-- Drawing a sprite writes no register but VF (44_display.md R192). -/
theorem State.v_drawCells_other {r : Nibble} (h : r ≠ 0xF) (xPos yPos : Nat) (rows : List Byte) :
    ((s.setVF 0).drawCells (spriteCells xPos yPos rows)).v r = s.v r := by
  rw [State.v_drawCells _ _ (nodup_spriteCells _ _ _), if_neg fun hc => h hc.1, State.v_setVF, if_neg h]

/-- LD Vx,[I] writes no register above Vx (43_index_memory.md R178). -/
theorem State.v_loadRegs_above {x r : Nibble} (h : x.toNat < r.toNat) {bs : List Byte} (hl : bs.length = x.toNat + 1) :
    (s.loadRegs 0 bs).v r = s.v r := by
  have := x.isLt
  rw [State.v_loadRegs _ _ _ (by omega), dif_neg (by omega)]

theorem State.v_waitKey_other {x r : Nibble} (h : r ≠ x) (c : Nat) (keys : List Nat) :
    (s.waitKey c x keys).v r = s.v r := by
  cases keys with
  | nil => rfl
  | cons k ks => exact State.v_setV_other h

/-- A register that R24's list does not name is as before. -/
theorem exec_v_unlisted {i : Instr} {r : Nibble} (hr : i.writesReg r = false) :
    EveryNext (fun t => t.v r = s.v r) (exec i s) := by
  have hfault (c : FaultCode) : (s.raiseFault c).v r = s.v r := rfl
  by_cases hV : Field.V ∈ i.writes
  case neg => exact fun t h => exec_unchanged hV (by decide) t h r
  cases i with
  | ldVxByte _ _ | addVxByte _ _ | ldVxVy _ _ | orVxVy _ _ | andVxVy _ _ | xorVxVy _ _ | ldVxDt _ | rndVxByte _ _ =>
    exact .next (State.v_setV_other (s := s.advance) (beq_eq_false_iff_ne.1 hr))
  | addVxVy _ _ | subVxVy _ _ | shrVx _ | subnVxVy _ _ | shlVx _ =>
    obtain ⟨hx, hf⟩ := Bool.or_eq_false_iff.1 hr
    exact .next (State.v_flagThen_other (s := s.advance) (beq_eq_false_iff_ne.1 hx) (beq_eq_false_iff_ne.1 hf))
  | drwVxVyN _ _ _ =>
    refine .settle hfault fun t ht => ?_
    rw [drw_ok ht]
    exact State.v_drawCells_other (s := s.advance) (beq_eq_false_iff_ne.1 hr) _ _ _
  | ldVxK _ => exact .next (State.v_waitKey_other (s := s.advance) (beq_eq_false_iff_ne.1 hr) _ _)
  | ldVxMem x =>
    refine .settle hfault fun t ht => ?_
    rw [ldVxMem_ok ht]
    exact State.v_loadRegs_above (s := s.advance) (Nat.lt_of_not_le (of_decide_eq_false hr)) (s.length_peeks _ _)
  | _ => simp [Instr.writes] at hV

/-! ### Which instructions write I (R29) -/

/-- R20's column names I for three instructions. -/
theorem index_mem_writes_cases {i : Instr} (h : Field.I ∈ i.writes) :
    (∃ nnn, i = .ldIAddr nnn) ∨ (∃ x, i = .addIVx x) ∨ ∃ x, i = .ldFVx x := by
  cases i with
  | ldIAddr nnn => exact .inl ⟨nnn, rfl⟩
  | addIVx x => exact .inr (.inl ⟨x, rfl⟩)
  | ldFVx x => exact .inr (.inr ⟨x, rfl⟩)
  | _ => simp [Instr.writes] at h

theorem exec_ldIAddr_I (nnn : Addr) : EveryNext (fun t => t.I.toNat = nnn.toNat) (exec (.ldIAddr nnn) s) :=
  .next (by have := nnn.isLt; rw [State.setI_I, BitVec.toNat_setWidth]; omega)

theorem exec_addIVx_I (x : Nibble) :
    EveryNext (fun t => t.I.toNat = (s.I.toNat + (s.v x).toNat) % 0x10000) (exec (.addIVx x) s) :=
  .next (by have := (s.v x).isLt; rw [State.setI_I, BitVec.toNat_add, BitVec.toNat_setWidth]; omega)

theorem exec_ldFVx_I (x : Nibble) :
    EveryNext (fun t => t.I.toNat = 0x050 + 5 * (s.v x).toNat) (exec (.ldFVx x) s) :=
  .next (by have := (s.v x).isLt; rw [State.setI_I, fontAddress, BitVec.toNat_ofNat, fontBase]; omega)

/-! ### The reset state (R42) -/

theorem peek_resetWith (p : Params) (b : Nat) : (State.resetWith p).peek b = resetByte p.font b := rfl

theorem memOk_resetWith (p : Params) : (State.resetWith p).MemOk := rfl

theorem stack_resetWith (p : Params) (j : Fin 16) : (State.resetWith p).stack[j] = 0 := by
  rw [Fin.getElem_fin]; exact Vector.getElem_replicate _

theorem pcOk_resetWith (p : Params) : (State.resetWith p).PcOk :=
  ⟨show (0x0200 : Word).toNat ≤ 0x10FE by decide, fun j => by rw [stack_resetWith]; decide⟩

end

/-- Settles O48: a faulting fetch changes `status` alone, and an instruction fetched from at most 0xFFE keeps the bounds; the
write of `opcode` touches neither field. -/
theorem cycleKeepsPcBounded : Obligations.CycleKeepsPcBounded := by
  intro s t hs h
  obtain ⟨-, ⟨-, rfl⟩ | ⟨hpc, u, hu, rfl⟩⟩ := step_cases h
  · exact hs
  · have hok : u.PcOk := exec_pcOk hs hpc _ u hu
    split
    · exact hok
    · exact hok

/-- Settles O42: a register outside the list keeps its value. -/
theorem onlyListedRegistersChange : Obligations.OnlyListedRegistersChange := by
  intro i s t r h hne
  by_contra hr
  exact hne (exec_v_unlisted (Bool.not_eq_true _ ▸ hr) t h)

/-- Settles O44: an instruction whose column does not name I leaves it, and the three that are left write their own value. -/
theorem onlyIndexInstructionsWriteIndex : Obligations.OnlyIndexInstructionsWriteIndex := by
  intro i s t h hne
  have hI : Field.I ∈ i.writes := by
    by_contra hI
    exact hne (exec_unchanged hI (by decide) t h)
  obtain ⟨nnn, rfl⟩ | ⟨x, rfl⟩ | ⟨x, rfl⟩ := index_mem_writes_cases hI
  · exact .inl ⟨nnn, rfl, exec_ldIAddr_I nnn t h⟩
  · exact .inr (.inl ⟨x, rfl, exec_addIVx_I x t h⟩)
  · exact .inr (.inr ⟨x, rfl, exec_ldFVx_I x t h⟩)

/-- Settles O50: at reset no byte is listed, pc is 0x200 and every stack entry 0. -/
theorem resetMeetsInvariants : Obligations.ResetMeetsInvariants :=
  ⟨fun p => ⟨memOk_resetWith p, pcOk_resetWith p⟩, memOk_resetWith _, pcOk_resetWith _⟩

/-- Settles O54: memory reads as the reset contents, the font and zeros; every other field is read off the reset state. -/
theorem resetValues : Obligations.ResetValues := by
  intro p
  refine ⟨fun k => ?font, fun b _ hb => ?zeros, fun r => ?registers, rfl, rfl, stack_resetWith p, rfl, rfl, rfl, fun k => ?keys,
    fun c _ => ?cells, rfl, rfl⟩
  case font => rw [peek_resetWith]; exact resetByte_font k
  case zeros => rw [peek_resetWith]; exact resetByte_zero (by unfold fontBase; omega)
  case registers => exact Vector.getElem_replicate _
  case keys => rw [Fin.getElem_fin]; exact Vector.getElem_replicate _
  case cells => exact BitVec.getLsbD_zero

end Sys2Proof.Machine
end

section
/-! PROOFS. Memory over all instructions (20_memory.md): which instructions write it, and which bytes (R50, R52). -/

namespace Sys2Proof.Machine

section
variable {s : State} {a : Nat}

/-- R20's column names memory for two instructions. -/
theorem memory_mem_writes_cases {i : Instr} (h : Field.mem ∈ i.writes) : (∃ x, i = .ldBVx x) ∨ ∃ x, i = .ldMemVx x := by
  cases i with
  | ldBVx x => exact .inl ⟨x, rfl⟩
  | ldMemVx x => exact .inr ⟨x, rfl⟩
  | _ => simp [Instr.writes] at h

/-- A byte that a store changes lies in the stored block, and the block inside memory: a fault changes no byte (20_memory.md R57,
60_exceptions.md R232). -/
theorem memWrite_changed_in_block (base : Nat) (bs : List Byte) :
    EveryNext (fun t => t.peek a ≠ s.peek a → base ≤ a ∧ a < base + bs.length ∧ a < memSize)
      (settle s (s.advance.memWrite base bs)) := by
  refine .settle (fun c hne => absurd (s.raiseFault_peek c a) hne) fun t ht hne => ?_
  rcases s.advance.memWrite_cases base bs with ⟨hin, hok⟩ | ⟨-, -, herr⟩
  · rw [State.memWrite_ok ht] at hne
    have hblock : base ≤ a ∧ a < base + bs.length := by
      by_contra hout
      exact hne (State.peek_pokes_outside (s := s.advance) (by omega))
    omega
  · rw [herr] at ht
    cases ht

/-- LD B,Vx changes no byte but its three digits (43_index_memory.md R174). -/
theorem exec_ldBVx_changed (x : Nibble) :
    EveryNext (fun t => t.peek a ≠ s.peek a → s.I.toNat ≤ a ∧ a < s.I.toNat + 3 ∧ a < memSize) (exec (.ldBVx x) s) :=
  memWrite_changed_in_block (s.ea 0) (bcdDigits (s.v x))

/-- LD [I],Vx changes no byte but those of V0 to Vx (43_index_memory.md R176). -/
theorem exec_ldMemVx_changed (x : Nibble) :
    EveryNext (fun t => t.peek a ≠ s.peek a → s.I.toNat ≤ a ∧ a < s.I.toNat + (x.toNat + 1) ∧ a < memSize)
      (exec (.ldMemVx x) s) := by
  rw [← s.length_regBlock x]
  exact memWrite_changed_in_block (s.ea 0) (s.regBlock x)

end

/-- Settles O45: an instruction whose column does not name memory leaves every byte, and the two stores change only bytes of their
block, which lies inside memory. -/
theorem onlyStoresWriteMemory : Obligations.OnlyStoresWriteMemory := by
  intro i s t a h hne
  have hmem : Field.mem ∈ i.writes := by
    by_contra hmem
    exact hne (exec_unchanged hmem (by decide) t h a)
  obtain ⟨x, rfl⟩ | ⟨x, rfl⟩ := memory_mem_writes_cases hmem
  · obtain ⟨hlo, hhi, hsize⟩ := exec_ldBVx_changed x t h hne
    exact .inl ⟨x, rfl, hlo, Nat.le_of_lt_succ hhi, Nat.le_of_lt_succ hsize⟩
  · obtain ⟨hlo, hhi, hsize⟩ := exec_ldMemVx_changed x t h hne
    exact .inr ⟨x, rfl, hlo, Nat.le_of_lt_succ hhi, Nat.le_of_lt_succ hsize⟩

end Sys2Proof.Machine
end

section
/-! PROOFS. The decoder and the encoder (30_encoding.md): the secondary tables by their unmatched selectors (R82), decoding what the
encoder wrote (R84), and what a word may lose on the way through its instruction (R81). -/

namespace Sys2Proof

section
variable {w : Word} {i : Instr} {p x y n s4 : Nibble} {s8 kk : Byte} {rest : BitVec 12}

/-! ### The four secondary tables -/

theorem decodeWord_primary_0 (h : primary w = 0x0) : decodeWord w = decode0 w := by simp [decodeWord, h]

theorem decodeWord_primary_8 (h : primary w = 0x8) : decodeWord w = decode8 w := by simp [decodeWord, h]

theorem decodeWord_primary_E (h : primary w = 0xE) : decodeWord w = decodeE w := by simp [decodeWord, h]

theorem decodeWord_primary_F (h : primary w = 0xF) : decodeWord w = decodeF w := by simp [decodeWord, h]

theorem unmatched0_iff : unmatched0 s4 = true ↔ s4 ≠ 0x0 ∧ s4 ≠ 0xE := by simp [unmatched0]

theorem unmatched8_iff : unmatched8 s4 = true ↔
    s4 ≠ 0x0 ∧ s4 ≠ 0x1 ∧ s4 ≠ 0x2 ∧ s4 ≠ 0x3 ∧ s4 ≠ 0x4 ∧ s4 ≠ 0x5 ∧ s4 ≠ 0x6 ∧ s4 ≠ 0x7 ∧ s4 ≠ 0xE := by
  revert s4
  decide

theorem unmatchedE_iff : unmatchedE s4 = true ↔ s4 ≠ 0xE ∧ s4 ≠ 0x1 := by simp [unmatchedE, and_comm]

theorem unmatchedF_iff : unmatchedF s8 = true ↔
    s8 ≠ 0x07 ∧ s8 ≠ 0x0A ∧ s8 ≠ 0x15 ∧ s8 ≠ 0x18 ∧ s8 ≠ 0x1E ∧ s8 ≠ 0x29 ∧ s8 ≠ 0x33 ∧ s8 ≠ 0x55 ∧ s8 ≠ 0x65 := by
  simp [unmatchedF]

/-- An unmatched s4 of p = 0x0 selects the null handler (R77, R82). -/
theorem decodeWord_unmatched0 (h : unmatched0 (lowNibble rest)) : decodeWord (wordNNN 0x0 rest) = .nop0 rest := by
  rw [unmatched0_iff] at h
  rw [decodeWord_primary_0 (primary_nnn _ _)]
  simp only [decode0, fieldN_nnn, fieldNNN_nnn, h, if_false]

/-- An unmatched s4 of p = 0x8 (R78). -/
theorem decodeWord_unmatched8 (h : unmatched8 (lowNibble rest)) : decodeWord (wordNNN 0x8 rest) = .nop8 rest := by
  rw [unmatched8_iff] at h
  rw [decodeWord_primary_8 (primary_nnn _ _)]
  simp only [decode8, fieldN_nnn, fieldNNN_nnn, h, if_false]

/-- An unmatched s4 of p = 0xE (R79). -/
theorem decodeWord_unmatchedE (h : unmatchedE (lowNibble rest)) : decodeWord (wordNNN 0xE rest) = .nopE rest := by
  rw [unmatchedE_iff] at h
  rw [decodeWord_primary_E (primary_nnn _ _)]
  simp only [decodeE, fieldN_nnn, fieldNNN_nnn, h, if_false]

/-- An unmatched s8 of p = 0xF (R80). -/
theorem decodeWord_unmatchedF (h : unmatchedF (lowByte rest)) : decodeWord (wordNNN 0xF rest) = .nopF rest := by
  rw [unmatchedF_iff] at h
  rw [decodeWord_primary_F (primary_nnn _ _)]
  simp only [decodeF, fieldKK_nnn, fieldNNN_nnn, h, if_false]

/-- Decoding undoes encoding (R84): every field is read back from the word's shape, and a null-handler term is well-formed only if
its selector is unmatched. -/
theorem decodeWord_encode (h : i.WellFormed) : decodeWord (encode i) = i := by
  cases i with
  | cls | ret => decide
  | jpAddr _ | callAddr _ | ldIAddr _ | jpV0Addr _ => simp [encode, decodeWord]
  | seVxByte _ _ | sneVxByte _ _ | ldVxByte _ _ | addVxByte _ _ | rndVxByte _ _ => simp [encode, decodeWord]
  | seVxVy _ _ | sneVxVy _ _ | drwVxVyN _ _ _ => simp [encode, decodeWord]
  | ldVxVy _ _ | orVxVy _ _ | andVxVy _ _ | xorVxVy _ _ | addVxVy _ _ | subVxVy _ _ | shrVx _ | subnVxVy _ _ | shlVx _ =>
    simp [encode, decodeWord_primary_8, decode8]
  | skpVx _ | sknpVx _ => simp [encode, decodeWord_primary_E, decodeE]
  | ldVxDt _ | ldVxK _ | ldDtVx _ | ldStVx _ | addIVx _ | ldFVx _ | ldBVx _ | ldMemVx _ | ldVxMem _ =>
    simp [encode, decodeWord_primary_F, decodeF]
  | nop0 _ => exact decodeWord_unmatched0 h
  | nop8 _ => exact decodeWord_unmatched8 h
  | nopE _ => exact decodeWord_unmatchedE h
  | nopF _ => exact decodeWord_unmatchedF h


/-! ### What decoding a word may lose -/

/-- A word whose fields are known, assembled again. -/
theorem wordNNN_fields (hp : primary w = p) : wordNNN p (fieldNNN w) = w := by rw [← hp, ← word_eq_nnn]

theorem wordXKK_fields (hp : primary w = p) (hkk : fieldKK w = kk) : wordXKK p (fieldX w) kk = w := by
  rw [← hp, ← hkk, ← word_eq_xkk]

theorem wordXYN_fields (hp : primary w = p) (hn : fieldN w = n) : wordXYN p (fieldX w) (fieldY w) n = w := by
  rw [← hp, ← hn, ← word_eq_xyn]

theorem lowNibble_fieldNNN (w : Word) : lowNibble (fieldNNN w) = fieldN w := by rw [word_eq_nnn w, fieldNNN_nnn, fieldN_nnn]

theorem lowByte_fieldNNN (w : Word) : lowByte (fieldNNN w) = fieldKK w := by rw [word_eq_nnn w, fieldNNN_nnn, fieldKK_nnn]

@[simp] theorem wordXYN_zero : wordXYN 0#4 0#4 0#4 0#4 = 0#16 := rfl

/-- Two words of one primary, compared outside the bits `ix`, `iy`, `im` of their other nibbles. -/
theorem xor_xyn_outside (p x y n x' y' n' ix iy im : Nibble) :
    (wordXYN p x y n ^^^ wordXYN p x' y' n') &&& ~~~ wordXYN 0x0 ix iy im =
      wordXYN 0x0 ((x ^^^ x') &&& ~~~ ix) ((y ^^^ y') &&& ~~~ iy) ((n ^^^ n') &&& ~~~ im) := by
  refine BitVec.eq_of_getLsbD_eq fun i hi => ?_
  interval_cases i <;> simp [getLsbD_xyn, -BitVec.getLsbD_eq_getElem]

/-- `i` is a well-formed instruction, and its own word is `w` but for the bits that `i` ignores (R81). -/
def Instr.Reads (i : Instr) (w : Word) : Prop := i.WellFormed ∧ (w ^^^ encode i) &&& ~~~ i.ignoredBits = 0

/-- Most instructions ignore no bit. -/
theorem Instr.Reads.of_encode (hi : i.WellFormed) (h : encode i = w) : i.Reads w := ⟨hi, by simp [h]⟩

/-- SE Vx,Vy and SNE Vx,Vy ignore n. -/
theorem Instr.Reads.of_ignored_n {m : Nibble} (hi : i.WellFormed) (hw : wordXYN p x y n = w)
    (he : encode i = wordXYN p x y m) (hig : i.ignoredBits = wordXYN 0x0 0x0 0x0 0xF) : i.Reads w :=
  ⟨hi, by rw [← hw, he, hig, xor_xyn_outside]; simp⟩

/-- SHR, SHL, SKP and SKNP ignore y. -/
theorem Instr.Reads.of_ignored_y {m : Nibble} (hi : i.WellFormed) (hw : wordXYN p x y n = w)
    (he : encode i = wordXYN p x m n) (hig : i.ignoredBits = wordXYN 0x0 0x0 0xF 0x0) : i.Reads w :=
  ⟨hi, by rw [← hw, he, hig, xor_xyn_outside]; simp⟩

/-- CLS and RET ignore x and y. -/
theorem Instr.Reads.of_ignored_xy {k m : Nibble} (hi : i.WellFormed) (hw : wordXYN p x y n = w)
    (he : encode i = wordXYN p k m n) (hig : i.ignoredBits = wordXYN 0x0 0xF 0xF 0x0) : i.Reads w :=
  ⟨hi, by rw [← hw, he, hig, xor_xyn_outside]; simp⟩

/-! The four secondary tables: one case for each selector value, and the null handler for the unmatched ones (R77 to R80, R82). -/

theorem decode0_reads (hp : primary w = 0x0) : (decode0 w).Reads w := by
  unfold decode0
  split_ifs with h0 hE
  · exact .of_ignored_xy (k := 0x0) (m := 0xE) rfl (wordXYN_fields hp h0) rfl rfl
  · exact .of_ignored_xy (k := 0x0) (m := 0xE) rfl (wordXYN_fields hp hE) rfl rfl
  · refine .of_encode (unmatched0_iff.2 ?_) (wordNNN_fields hp)
    rw [lowNibble_fieldNNN]
    exact ⟨h0, hE⟩

theorem decode8_reads (hp : primary w = 0x8) : (decode8 w).Reads w := by
  unfold decode8
  split_ifs with h0 h1 h2 h3 h4 h5 h6 h7 hE
  · exact .of_encode rfl (wordXYN_fields hp h0)
  · exact .of_encode rfl (wordXYN_fields hp h1)
  · exact .of_encode rfl (wordXYN_fields hp h2)
  · exact .of_encode rfl (wordXYN_fields hp h3)
  · exact .of_encode rfl (wordXYN_fields hp h4)
  · exact .of_encode rfl (wordXYN_fields hp h5)
  · exact .of_ignored_y rfl (wordXYN_fields hp h6) rfl rfl
  · exact .of_encode rfl (wordXYN_fields hp h7)
  · exact .of_ignored_y rfl (wordXYN_fields hp hE) rfl rfl
  · refine .of_encode (unmatched8_iff.2 ?_) (wordNNN_fields hp)
    rw [lowNibble_fieldNNN]
    exact ⟨h0, h1, h2, h3, h4, h5, h6, h7, hE⟩

theorem decodeE_reads (hp : primary w = 0xE) : (decodeE w).Reads w := by
  unfold decodeE
  split_ifs with hE h1
  · exact .of_ignored_y rfl (wordXYN_fields hp hE) (Laws.TableRow.xkk_eq_xyn 0xE _ 0x9 0xE) rfl
  · exact .of_ignored_y rfl (wordXYN_fields hp h1) (Laws.TableRow.xkk_eq_xyn 0xE _ 0xA 0x1) rfl
  · refine .of_encode (unmatchedE_iff.2 ?_) (wordNNN_fields hp)
    rw [lowNibble_fieldNNN]
    exact ⟨hE, h1⟩

theorem decodeF_reads (hp : primary w = 0xF) : (decodeF w).Reads w := by
  unfold decodeF
  split_ifs with h07 h0A h15 h18 h1E h29 h33 h55 h65
  · exact .of_encode rfl (wordXKK_fields hp h07)
  · exact .of_encode rfl (wordXKK_fields hp h0A)
  · exact .of_encode rfl (wordXKK_fields hp h15)
  · exact .of_encode rfl (wordXKK_fields hp h18)
  · exact .of_encode rfl (wordXKK_fields hp h1E)
  · exact .of_encode rfl (wordXKK_fields hp h29)
  · exact .of_encode rfl (wordXKK_fields hp h33)
  · exact .of_encode rfl (wordXKK_fields hp h55)
  · exact .of_encode rfl (wordXKK_fields hp h65)
  · refine .of_encode (unmatchedF_iff.2 ?_) (wordNNN_fields hp)
    rw [lowByte_fieldNNN]
    exact ⟨h07, h0A, h15, h18, h1E, h29, h33, h55, h65⟩

/-- Every word is read by what it decodes to (R74, R81). The cases are the primary selector's values in rising order. -/
theorem decodeWord_reads (w : Word) : (decodeWord w).Reads w := by
  unfold decodeWord
  split
  next h => exact decode0_reads h
  next h => exact .of_encode rfl (wordNNN_fields h)
  next h => exact .of_encode rfl (wordNNN_fields h)
  next h => exact .of_encode rfl (wordXKK_fields h rfl)
  next h => exact .of_encode rfl (wordXKK_fields h rfl)
  next h => exact .of_ignored_n rfl (wordXYN_fields h rfl) rfl rfl
  next h => exact .of_encode rfl (wordXKK_fields h rfl)
  next h => exact .of_encode rfl (wordXKK_fields h rfl)
  next h => exact decode8_reads h
  next h => exact .of_ignored_n rfl (wordXYN_fields h rfl) rfl rfl
  next h => exact .of_encode rfl (wordNNN_fields h)
  next h => exact .of_encode rfl (wordNNN_fields h)
  next h => exact .of_encode rfl (wordXKK_fields h rfl)
  next h => exact .of_encode rfl (wordXYN_fields h rfl)
  next h => exact decodeE_reads h
  next =>
    refine decodeF_reads ?_
    simp only [imp_false] at *
    bv_omega

/-! ### The selector bits of a word -/

/-- Two words that agree outside `ig` agree under a mask that meets no bit of `ig`. -/
theorem and_mask_congr {u v ig mask : Word} (h : (u ^^^ v) &&& ~~~ ig = 0) (hm : ig &&& mask = 0) : u &&& mask = v &&& mask := by
  refine BitVec.eq_of_getLsbD_eq fun j hj => ?_
  have hj1 := congrArg (BitVec.getLsbD · j) h
  have hj2 := congrArg (BitVec.getLsbD · j) hm
  simp only [BitVec.getLsbD_and, BitVec.getLsbD_xor, BitVec.getLsbD_not, hj, decide_true, Bool.true_and] at hj1 hj2 ⊢
  cases hu : u.getLsbD j <;> cases hv : v.getLsbD j <;> simp_all

/-- No selector bit of a row is ignored (R75, R81). -/
theorem Instr.ignoredBits_and_tableMask (i : Instr) : i.ignoredBits &&& i.tableMask = 0 := by
  cases i <;> simp [Instr.ignoredBits, Instr.tableMask]

open Laws.TableRow in
/-- R75: the word of every well-formed instruction lies in its row; the cases stand in the table's order. -/
theorem encode_and_tableMask (h : i.WellFormed) : encode i &&& i.tableMask = i.tableMatch := by
  suffices Statement i from this h
  cases i
  exacts [cls, ret, jpAddr _, callAddr _, seVxByte _ _, sneVxByte _ _, seVxVy _ _, ldVxByte _ _, addVxByte _ _, ldVxVy _ _,
    orVxVy _ _, andVxVy _ _, xorVxVy _ _, addVxVy _ _, subVxVy _ _, shrVx _, subnVxVy _ _, shlVx _, sneVxVy _ _, ldIAddr _,
    jpV0Addr _, rndVxByte _ _, drwVxVyN _ _ _, skpVx _, sknpVx _, ldVxDt _, ldVxK _, ldDtVx _, ldStVx _, addIVx _, ldFVx _,
    ldBVx _, ldMemVx _, ldVxMem _, nop0 _, nop8 _, nopE _, nopF _]

end

/-- Settles O51: the bytes of an instruction are those of its word, and decoding undoes encoding on words. -/
theorem decodeEncodeRoundTrip : Obligations.DecodeEncodeRoundTrip := fun i hi =>
  ⟨decodeWord_encode hi, fun rest => by rw [encodeBytes, decodeBytes_bytes, decodeWord_encode hi]⟩

/-- Settles O52: a word agrees with the word of what it decodes to outside the ignored bits, hence under the row's mask too, and that
instruction's own word lies in the row. -/
theorem everyWordFollowsItsTableRow : Obligations.EveryWordFollowsItsTableRow := fun w => by
  obtain ⟨hwf, hagree⟩ := decodeWord_reads w
  have hrow := and_mask_congr hagree (Instr.ignoredBits_and_tableMask _)
  exact ⟨hwf, hrow.trans (encode_and_tableMask hwf), hagree⟩

/-- Settles O53: each word is closed, and the decoder computes. -/
theorem writtenOutWordsDecode : Obligations.WrittenOutWordsDecode := by
  unfold Obligations.WrittenOutWordsDecode
  decide

end Sys2Proof
end

section
/-! PROOFS. The null handler (30_encoding.md R82, 40_cycle.md R107), and that no word stops a running core (30_encoding.md R83,
40_cycle.md R105). -/

namespace Sys2Proof.Machine

/-- Settles O32: the selectors of each group are unmatched ones of its table, and the null handler only advances. -/
theorem unmatchedWordsOnlyAdvance : Obligations.UnmatchedWordsOnlyAdvance := by
  intro rest
  refine ⟨fun h0 hE => decodeWord_unmatched0 (unmatched0_iff.2 ⟨h0, hE⟩), fun h => decodeWord_unmatched8 ?eight,
    fun h1 hE => decodeWord_unmatchedE (unmatchedE_iff.2 ⟨hE, h1⟩), fun h => decodeWord_unmatchedF ?high, fun s i hi => ?null⟩
  case eight =>
    rw [unmatched8_iff]
    bv_omega
  case high => simpa [unmatchedF] using h
  case null =>
    refine ⟨s.advance, ?_, frame_advance s, rfl⟩
    simp only [List.mem_cons, List.not_mem_nil, or_false] at hi
    obtain rfl | rfl | rfl | rfl := hi <;> rfl

/-- What a step of a running core is where nothing can be fetched (40_cycle.md R101). -/
theorem step_fetch_out_of_range {s : State} (hs : s.status = .running) (hpc : s.pc.toNat > 0xFFE) :
    step s = .next (s.raiseFault .fetchOutOfRange) := by
  obtain ⟨hle, -⟩ | ⟨-, hfetch⟩ := s.fetch_cases
  · omega
  · simp [step, cycle, hs, hfetch]

/-- R20's column gives `status` to no handler: only a fault writes it. -/
theorem status_not_mem_writes (i : Instr) : Field.status ∉ i.writes := by cases i <;> simp [Instr.writes]

/-- Settles O40: a fetch out of range faults; else the handler of whatever was fetched answers a next state, in which it left `status`
or raised a fault at pc. -/
theorem runningCoreAlwaysSteps : Obligations.RunningCoreAlwaysSteps := by
  intro s hs
  rcases Nat.lt_or_ge 0xFFE s.pc.toNat with hpc | hpc
  · exact ⟨_, step_fetch_out_of_range hs hpc, .inr ⟨_, rfl⟩⟩
  · rw [step_running hs hpc]
    obtain ⟨u, hu, hframe | ⟨c, -, rfl⟩⟩ := exec_ends s (decodeWord (s.wordAt s.pc.toNat))
    · have hrun : u.status = .running := (hframe .status (status_not_mem_writes _)).trans hs
      rw [hu, commitOpcode_running _ hrun]
      exact ⟨_, rfl, .inl hrun⟩
    · rw [hu, commitOpcode_faulted _ (by simp [State.raiseFault])]
      exact ⟨_, rfl, .inr ⟨c, rfl⟩⟩

end Sys2Proof.Machine
end

section
/-! PROOFS. The cycle (40_cycle.md): what a step is and what every step keeps (R100 to R110), and that a store over the next word is what
the next step runs (20_memory.md R63). -/

namespace Sys2Proof.Machine

section
variable {s : State} {P : State → Prop} {i : Instr}

/-! ### What holds after every step -/

/-- A property holds after every step if a faulting fetch leaves it (R101), the fetched instruction's handler establishes it (R104), and
the write of `opcode`, which comes only after a handler that did not fault, keeps it (R100, R108). -/
theorem step_everyNext (hfetch : P (s.raiseFault .fetchOutOfRange))
    (hexec : EveryNext P (exec (decodeWord (s.wordAt s.pc.toNat)) s))
    (hopcode : ∀ (u : State) (w : Word), u.status = .running → P u → P { u with opcode := w }) : EveryNext P (step s) := by
  intro t h
  obtain ⟨-, ⟨-, rfl⟩ | ⟨-, u, hu, rfl⟩⟩ := step_cases h
  · exact hfetch
  · split
    · exact hopcode u _ ‹_› (hexec u hu)
    · exact hexec u hu

/-- The step of a running core whose handler went through (R100 to R105). -/
theorem step_of_exec_running {t : State} (hs : s.status = .running) (hpc : s.pc.toNat ≤ 0xFFE)
    (he : exec (decodeWord (s.wordAt s.pc.toNat)) s = .next t) (ht : t.status = .running) :
    step s = .next { t with opcode := s.wordAt s.pc.toNat } := by
  rw [step_running hs hpc, he, commitOpcode_running _ ht]

/-- The step of a running core whose handler raised a fault (R108). -/
theorem step_of_exec_faulted {t : State} (hs : s.status = .running) (hpc : s.pc.toNat ≤ 0xFFE)
    (he : exec (decodeWord (s.wordAt s.pc.toNat)) s = .next t) (ht : t.status ≠ .running) : step s = .next t := by
  rw [step_running hs hpc, he, commitOpcode_faulted _ ht]

/-! ### The null handler and faults -/

/-- The null handler is the cycle's own advance and nothing more (R107). -/
theorem exec_null {rest : BitVec 12} (s : State) (hi : i ∈ [Instr.nop0 rest, .nop8 rest, .nopE rest, .nopF rest]) :
    exec i s = .next s.advance := by
  simp only [List.mem_cons, List.not_mem_nil, or_false] at hi
  obtain rfl | rfl | rfl | rfl := hi <;> rfl

/-- A handler that began on a running state and did not end on one raised a fault on the state it began on (R108, 60_exceptions.md
R232): no instruction's column of R20 names `status`. -/
theorem exec_precise (hs : s.status = .running) :
    EveryNext (fun t => t.status ≠ .running → ∃ c, t = s.raiseFault c) (exec i s) := by
  intro t h hne
  rcases exec_next_cases h with hframe | ⟨c, -, rfl⟩
  · exact absurd ((hframe .status (status_not_mem_writes i)).trans hs) hne
  · exact ⟨c, rfl⟩

/-! ### Keypad and timers (R110) -/

/-- R20's column gives `key` to no handler: the host alone writes it. -/
theorem key_not_mem_writes (i : Instr) : Field.key ∉ i.writes := by cases i <;> simp [Instr.writes]

/-- R20's column names DT for one instruction. -/
theorem DT_mem_writes (h : Field.DT ∈ i.writes) : ∃ x, i = .ldDtVx x := by
  cases i with
  | ldDtVx x => exact ⟨x, rfl⟩
  | _ => simp [Instr.writes] at h

/-- R20's column names ST for one instruction. -/
theorem ST_mem_writes (h : Field.ST ∈ i.writes) : ∃ x, i = .ldStVx x := by
  cases i with
  | ldStVx x => exact ⟨x, rfl⟩
  | _ => simp [Instr.writes] at h

/-- LD DT,Vx alone moves the delay timer (45_keys_timers.md R217). -/
theorem exec_DT_changed (i : Instr) : EveryNext (fun t => t.DT ≠ s.DT → ∃ x, i = .ldDtVx x ∧ t.DT = s.v x) (exec i s) := by
  by_cases hDT : Field.DT ∈ i.writes
  · obtain ⟨x, rfl⟩ := DT_mem_writes hDT
    exact .next fun _ => ⟨x, rfl, rfl⟩
  · exact fun t h hne => absurd (exec_unchanged hDT (by decide) t h) hne

/-- LD ST,Vx alone moves the sound timer (R218). -/
theorem exec_ST_changed (i : Instr) : EveryNext (fun t => t.ST ≠ s.ST → ∃ x, i = .ldStVx x ∧ t.ST = s.v x) (exec i s) := by
  by_cases hST : Field.ST ∈ i.writes
  · obtain ⟨x, rfl⟩ := ST_mem_writes hST
    exact .next fun _ => ⟨x, rfl, rfl⟩
  · exact fun t h hne => absurd (exec_unchanged hST (by decide) t h) hne

/-! ### A store over the next word (20_memory.md R63) -/

/-- A stored byte, named by its place in the list, is read back. -/
theorem State.peek_pokes_of_getElem? {base j : Nat} {bs : List Byte} {b : Byte} (hm : s.MemOk)
    (hfit : base + bs.length ≤ memSize) (hb : bs[j]? = some b) : (s.pokes base bs).peek (base + j) = b := by
  obtain ⟨hj, rfl⟩ := List.getElem?_eq_some_iff.1 hb
  exact State.peek_pokes_inside hm (.inr hfit) j hj

/-- A block write inside memory does not fault (20_memory.md R55). -/
theorem State.memWrite_of_fits {base : Nat} {bs : List Byte} (hfit : base + bs.length ≤ memSize) :
    s.memWrite base bs = .ok (s.pokes base bs) := by
  obtain ⟨-, hok⟩ | ⟨-, hgt, -⟩ := s.memWrite_cases base bs
  · exact hok
  · omega

/-- If a handler ends running and two bytes further on, the next step runs the word it left there: the write of `opcode` between them
touches neither pc nor memory (R100, R109). -/
theorem nextStepRuns_of_exec {u : State} (hs : s.status = .running) (hpc : s.pc.toNat ≤ 0xFFE)
    (he : exec (decodeWord (s.wordAt s.pc.toNat)) s = .next u) (hu : u.status = .running) (hupc : u.pc = s.pc + 2)
    (hle : u.pc.toNat ≤ 0xFFE) : s.NextStepRuns (u.wordAt u.pc.toNat) :=
  ⟨{ u with opcode := s.wordAt s.pc.toNat }, step_of_exec_running hs hpc he hu, hupc,
    fun _ hv => ⟨step_of_exec_running hu hle hv, step_of_exec_faulted hu hle hv⟩⟩

/-- A step whose instruction stores a block inside memory (R63, 43_index_memory.md R174, R176): if the block's bytes `j` and `j + 1` lie
on the next word, the next step runs the word they make. -/
theorem nextStepRuns_of_store {base j : Nat} {bs : List Byte} {high low : Byte} (hm : s.MemOk) (hs : s.status = .running)
    (hexec : exec (decodeWord (s.wordAt s.pc.toNat)) s = settle s (s.advance.memWrite base bs))
    (hfit : base + bs.length ≤ memSize) (hplace : base + j = s.pc.toNat + 2) (hhigh : bs[j]? = some high)
    (hlow : bs[j + 1]? = some low) : s.NextStepRuns (high ++ low) := by
  have hlen : j + 1 < bs.length := (List.getElem?_eq_some_iff.1 hlow).1
  have hlast : s.pc.toNat + 3 < 0x1000 := by unfold memSize at hfit; omega
  have hnext : (s.pc + 2).toNat = base + j := by bv_omega
  have hrun : (s.advance.pokes base bs).status = .running := by rw [State.pokes_status]; exact hs
  rw [State.memWrite_of_fits hfit] at hexec
  have hpc : (s.advance.pokes base bs).pc = s.pc + 2 := State.pokes_pc _ _ _
  have hword : (s.advance.pokes base bs).wordAt (base + j) = high ++ low := by
    rw [State.wordAt_eq, State.peek_pokes_of_getElem? (s := s.advance) hm hfit hhigh, Nat.add_assoc,
      State.peek_pokes_of_getElem? (s := s.advance) hm hfit hlow]
  rw [← hword, ← hnext, ← hpc]
  exact nextStepRuns_of_exec hs (by omega) hexec hrun hpc (by rw [hpc]; omega)

/-- Byte `k` of the block that LD [I],Vx stores is V[k] (43_index_memory.md R176). -/
theorem State.getElem?_regBlock {x k : Nibble} (h : k.toNat ≤ x.toNat) : (s.regBlock x)[k.toNat]? = some (s.v k) := by
  have hk : k.toNat < (s.regBlock x).length := by rw [State.length_regBlock]; omega
  rw [List.getElem?_eq_getElem hk, State.getElem_regBlock, BitVec.ofNat_toNat, BitVec.setWidth_eq]

/-- The block that LD B,Vx stores, by its digits (R174). -/
theorem bcdDigits_eq {v hundreds tens units : Byte} (hh : hundreds.toNat = v.toNat / 100)
    (ht : tens.toNat = v.toNat / 10 % 10) (hu : units.toNat = v.toNat % 10) : bcdDigits v = [hundreds, tens, units] := by
  rw [bcdDigits, ← hh, ← ht, ← hu]
  simp only [BitVec.ofNat_toNat, BitVec.setWidth_eq]

end

/-- Settles O36: the cycle asks for `status` before anything else. -/
theorem faultedCoreHasNoCycle : Obligations.FaultedCoreHasNoCycle := by
  intro s c a hs
  simp only [step, cycle, hs]

/-- Settles O35: the fault of the fetch, raised on the state at the start of the cycle. -/
theorem fetchOutOfRangeFaults : Obligations.FetchOutOfRangeFaults := fun _ => step_fetch_out_of_range

/-- Settles O34: a step is the handler's end, with `opcode` written if no fault was raised. -/
theorem cycleRunsDecodedInstruction : Obligations.CycleRunsDecodedInstruction := fun _ _ hs hpc he =>
  ⟨step_of_exec_running hs hpc he, step_of_exec_faulted hs hpc he⟩

/-- Settles O33: the null handler's end is the advanced state, still running. -/
theorem nullHandlerCycle : Obligations.NullHandlerCycle := by
  rintro s w hs hpc rfl ⟨rest, hrest⟩
  exact step_of_exec_running hs hpc (exec_null s hrest) hs

/-- Settles O37: the fetch and every handler raise a fault on the state at the start of the cycle, and `opcode` is written only on a
running state. -/
theorem faultsArePrecise : Obligations.FaultsArePrecise := fun _ t hs h =>
  step_everyNext (fun _ => ⟨_, rfl⟩) (exec_precise hs) (fun _ _ hu _ hne => absurd hu hne) t h

/-- Settles O39: no handler writes the keypad, one writes DT and one ST; a faulting fetch and the write of `opcode` touch none of
them. -/
theorem cycleLeavesKeysAndTimers : Obligations.CycleLeavesKeysAndTimers := by
  intro s t h
  refine ⟨?key, ?delay, ?sound⟩
  case key =>
    exact step_everyNext (P := fun t => t.key = s.key) rfl (exec_unchanged (key_not_mem_writes _) (by decide))
      (fun _ _ _ hu => hu) t h
  case delay => exact step_everyNext (absurd rfl) (exec_DT_changed _) (fun _ _ _ hu => hu) t h
  case sound => exact step_everyNext (absurd rfl) (exec_ST_changed _) (fun _ _ _ hu => hu) t h

/-- Settles O46: both stores end in the same block write, of V0 to Vx or of the three digits, and the next step fetches two bytes of the
block. -/
theorem storeIsSeenByNextFetch : Obligations.StoreIsSeenByNextFetch := by
  intro s x hm hs
  refine ⟨fun hdec hfit k hplace hk => ?registers, fun hdec hfit hundreds tens units hh ht hu => ?digits⟩
  case registers =>
    have hsucc : (k + 1).toNat = k.toNat + 1 := by bv_omega
    refine nextStepRuns_of_store hm hs (congrArg (exec · s) hdec) ?fits hplace (State.getElem?_regBlock (by omega))
      (hsucc ▸ State.getElem?_regBlock (hsucc ▸ hk))
    rw [State.length_regBlock, State.ea, memSize]
    omega
  case digits =>
    have hexec : exec (decodeWord (s.wordAt s.pc.toNat)) s =
        settle s (s.advance.memWrite (s.ea 0) [hundreds, tens, units]) := by
      rw [← bcdDigits_eq hh ht hu]
      exact congrArg (exec · s) hdec
    have hblock : s.ea 0 + [hundreds, tens, units].length ≤ memSize := Nat.lt_succ_of_le hfit
    exact ⟨fun hplace => nextStepRuns_of_store (j := 0) hm hs hexec hblock hplace rfl rfl,
      fun hplace => nextStepRuns_of_store (j := 1) hm hs hexec hblock hplace rfl rfl⟩

end Sys2Proof.Machine
end

section
/-! PROOFS. Control flow (41_control_flow.md): the words of its rows with their ignored bits (30_encoding.md R81), what each of its
handlers answers, and the round trip of CALL and RET (R123). -/

namespace Sys2Proof

section
variable {p x y ign : Nibble}

/-! ### The words of the rows -/

/-- A word written as nibble, byte, nibble is a primary and the rest. -/
theorem nibble_byte_nibble_eq_nnn (p n : Nibble) (b : Byte) : (p ++ b ++ n : Word) = wordNNN p (b ++ n) :=
  BitVec.append_assoc

theorem lowNibble_append (b : Byte) (n : Nibble) : lowNibble (b ++ n) = n :=
  BitVec.extractLsb'_append_eq_right

/-- The middle byte of RET's word is ignored (R77, R120). -/
theorem decodeWord_ret (ign : Byte) : decodeWord (0x0#4 ++ ign ++ 0xE#4) = .ret := by
  refine (congrArg decodeWord (nibble_byte_nibble_eq_nnn 0x0 0xE ign)).trans ?_
  rw [decodeWord_primary_0 (primary_nnn _ _)]
  simp [decode0, lowNibble_append]

/-- CALL's word has no ignored bit (R122): it is the one the encoder writes. -/
theorem decodeWord_callAddr (nnn : Addr) : decodeWord (0x2#4 ++ nnn) = .callAddr nnn :=
  decodeWord_encode (i := .callAddr nnn) rfl

/-- The low nibble of SE Vx,Vy's word is ignored (R127). -/
theorem decodeWord_seVxVy : decodeWord (wordXYN 0x5 x y ign) = .seVxVy x y := by simp [decodeWord]

/-- The low nibble of SNE Vx,Vy's word is ignored (R128). -/
theorem decodeWord_sneVxVy : decodeWord (wordXYN 0x9 x y ign) = .sneVxVy x y := by simp [decodeWord]

/-! ### Jump targets -/

/-- Widening an address keeps its value (00_scope.md R12). -/
theorem toNat_zext16_addr (nnn : Addr) : (zext16 nnn).toNat = nnn.toNat :=
  BitVec.toNat_setWidth_of_le (by decide)

/-- The sum of an address and a byte does not wrap (R133). -/
theorem toNat_zext16_add (nnn : Addr) (b : Byte) : (zext16 nnn + zext16 b).toNat = nnn.toNat + b.toNat := by
  have hb : (zext16 b).toNat = b.toNat := BitVec.toNat_setWidth_of_le (by decide)
  rw [BitVec.toNat_add, toNat_zext16_addr, hb]
  omega

end

end Sys2Proof

namespace Sys2Proof.Machine

section
variable {s t : State} {nnn : Addr}

/-! ### The step that fetches a known word -/

/-- The step of a running core at which a word of the instruction `i` stands, if the handler goes through (40_cycle.md R100 to
R105). -/
theorem step_of_word {w : Word} {i : Instr} (hs : s.status = .running) (hpc : s.pc.toNat ≤ 0xFFE)
    (hw : s.peek s.pc.toNat ++ s.peek (s.pc.toNat + 1) = w) (hdec : decodeWord w = i) (he : exec i s = .next t)
    (ht : t.status = .running) : step s = .next { t with opcode := w } := by
  subst hw hdec
  exact step_of_exec_running hs hpc he ht

/-- A handler that left `status` as it was changed only its own fields (R15). -/
theorem exec_frame {i : Instr} (he : exec i s = .next t) (hs : t.status = s.status) : Frame i.writes s t := by
  obtain ⟨-, hframe⟩ := handlersWriteOnlyTheirFields i s t he
  exact hframe hs

/-! ### Skips and jumps -/

/-- A skip on equality (R124). -/
theorem State.advance_skipIf_beq_pc (a b : Byte) : (s.advance.skipIf (a == b)).pc = s.pc + if a = b then 4 else 2 := by
  rw [State.skipIf_pc, State.advance_pc, BitVec.add_assoc]
  by_cases h : a = b <;> simp [h]

/-- A skip on difference (R124). -/
theorem State.advance_skipIf_bne_pc (a b : Byte) : (s.advance.skipIf (a != b)).pc = s.pc + if a = b then 2 else 4 := by
  rw [State.skipIf_pc, State.advance_pc, BitVec.add_assoc]
  by_cases h : a = b <;> simp [h]

/-- A jump to the jump's own address takes the cycle's advance back (R121). -/
theorem exec_jpAddr_self (h : s.pc.toNat = nnn.toNat) : exec (.jpAddr nnn) s = .next s := by
  have htarget : zext16 nnn = s.pc := BitVec.eq_of_toNat_eq (by rw [toNat_zext16_addr, h])
  exact congrArg (fun w => Host.Outcome.next (s.advance.jump w)) htarget

/-! ### CALL and RET -/

theorem exec_callAddr_of_lt (nnn : Addr) (h : s.sp.val < 16) : exec (.callAddr nnn) s = .next
    { s with stack := s.stack.set s.sp.val (s.pc + 2), sp := ⟨s.sp.val + 1, by omega⟩, pc := zext16 nnn } :=
  congrArg (settle s) (s.advance.call_of_lt (zext16 nnn) h)

theorem exec_callAddr_of_full (nnn : Addr) (h : s.sp.val = 16) :
    exec (.callAddr nnn) s = .next (s.raiseFault .stackOverflow) :=
  congrArg (settle s) (s.advance.call_of_full (zext16 nnn) h)

theorem exec_ret_of_succ {k : Nat} (h : s.sp.val = k + 1) (hk : k < 16) :
    exec .ret s = .next { s with sp := ⟨k, by omega⟩, pc := s.stack[k] } :=
  congrArg (settle s) (s.advance.ret_of_succ h hk)

theorem exec_ret_of_empty (h : s.sp.val = 0) : exec .ret s = .next (s.raiseFault .stackUnderflow) :=
  congrArg (settle s) (s.advance.ret_of_empty h)

/-- The round trip (R123): RET on any state that has the sp and the stack of a CALL on `s`. -/
theorem exec_ret_after_call {u : State} (h : s.sp.val < 16) (hsp : u.sp.val = s.sp.val + 1)
    (hstack : u.stack = s.stack.set s.sp.val (s.pc + 2)) :
    exec .ret u = .next { u with sp := s.sp, pc := s.pc + 2 } := by
  have htop : u.stack[s.sp.val] = s.pc + 2 := by simp [hstack]
  rw [exec_ret_of_succ hsp h, htop]

theorem frame_pc_stack_opcode (s : State) (a w : Word) (entries : Vector Word 16) :
    Frame [.pc, .stack, .opcode] s { s with pc := a, stack := entries, opcode := w } := fun f hf => by
  cases f <;> simp_all [Unchanged, State.peek, State.v, State.cell]

end

/-- Settles O4: the pushed entry is the one RET pops, whatever ran between; and in two steps of their own the two write nothing but pc,
the entry and `opcode`, sp going up and down again. -/
theorem callThenRetReturns : Obligations.CallThenRetReturns := by
  intro nnn s hsp
  have hcall := exec_callAddr_of_lt nnn hsp
  refine ⟨⟨_, hcall, fun u husp hustack => ?anywhere⟩, fun ign hs hpc hnnn hwcall hwret => ?atTarget⟩
  case anywhere =>
    exact ⟨_, exec_ret_after_call hsp (congrArg Fin.val husp) hustack, rfl, rfl⟩
  case atTarget =>
    refine ⟨_, _, step_of_word hs hpc hwcall (decodeWord_callAddr nnn) hcall hs,
      step_of_word hs ?fetch ?word (decodeWord_ret ign) (exec_ret_after_call hsp rfl rfl) hs, rfl, rfl,
      frame_pc_stack_opcode s _ _ _⟩
    case fetch => exact (toNat_zext16_addr nnn).trans_le hnnn
    case word => rw [toNat_zext16_addr]; exact hwret

/-- Settles O1: sp is a successor and RET pops, or it is 0 and RET faults. -/
theorem retPopsOrUnderflows : Obligations.RetPopsOrUnderflows := by
  refine ⟨decodeWord_ret, fun s => ⟨fun k hsp hk => ?pop, exec_ret_of_empty⟩⟩
  have hret := exec_ret_of_succ hsp hk
  exact ⟨_, hret, exec_frame hret rfl, rfl, rfl⟩

/-- Settles O2: the target is the address field widened; and a jump to its own address has the state it began on as its end. -/
theorem jpAddrJumps : Obligations.JpAddrJumps := by
  intro nnn
  have hdec : decodeWord (0x1#4 ++ nnn) = .jpAddr nnn := decodeWord_encode (i := .jpAddr nnn) rfl
  exact ⟨hdec, fun s => ⟨_, rfl, frame_advance_jump s _, toNat_zext16_addr nnn⟩, fun s hs hpc hself hw =>
    step_of_word hs hpc hw hdec (exec_jpAddr_self hself) hs⟩

/-- Settles O3: CALL below the limit pushes one entry, and on a full stack faults. -/
theorem callPushesOrOverflows : Obligations.CallPushesOrOverflows := by
  refine fun nnn => ⟨decodeWord_callAddr nnn, fun s => ⟨fun hsp => ?push, exec_callAddr_of_full nnn⟩⟩
  have hcall := exec_callAddr_of_lt nnn hsp
  refine ⟨_, hcall, exec_frame hcall rfl, toNat_zext16_addr nnn, rfl, fun j => ?entry⟩
  simp only [Fin.getElem_fin, Vector.getElem_set, eq_comm]

/-- Settles O5: both are a skip, on equality with the immediate and on difference from it. -/
theorem byteSkipsCompareWithImmediate : Obligations.ByteSkipsCompareWithImmediate := fun x kk =>
  ⟨decodeWord_encode (i := .seVxByte x kk) rfl, decodeWord_encode (i := .sneVxByte x kk) rfl, fun s =>
    ⟨⟨_, rfl, frame_advance_skipIf s _, State.advance_skipIf_beq_pc (s.v x) kk⟩,
      ⟨_, rfl, frame_advance_skipIf s _, State.advance_skipIf_bne_pc (s.v x) kk⟩⟩⟩

/-- Settles O6: as with an immediate, the second operand a register. -/
theorem registerSkipsCompareRegisters : Obligations.RegisterSkipsCompareRegisters := fun x y =>
  ⟨fun _ => ⟨decodeWord_seVxVy, decodeWord_sneVxVy⟩, fun s =>
    ⟨⟨_, rfl, frame_advance_skipIf s _, State.advance_skipIf_beq_pc (s.v x) (s.v y)⟩,
      ⟨_, rfl, frame_advance_skipIf s _, State.advance_skipIf_bne_pc (s.v x) (s.v y)⟩⟩⟩

/-- Settles O7: the target is the sum of the address field and V0, which does not wrap. -/
theorem jpV0AddrJumpsToSum : Obligations.JpV0AddrJumpsToSum := fun nnn =>
  ⟨decodeWord_encode (i := .jpV0Addr nnn) rfl, fun s =>
    ⟨_, rfl, frame_advance_jump s _, toNat_zext16_add nnn (s.v 0)⟩⟩

end Sys2Proof.Machine
end

section
/-! PROOFS. Register loads, arithmetic and logic (42_alu.md): what a handler that writes one register and one that writes VF before its
result leave in the registers, the values of the flags, and the count of free values (R163, 45_keys_timers.md R216). -/

namespace Sys2Proof

/-- The nibble y of SHR's word is ignored (R151). -/
theorem decodeWord_shrVx (x ign : Nibble) : decodeWord (wordXYN 0x8 x ign 0x6) = .shrVx x := by
  rw [decodeWord_primary_8 (primary_xyn _ _ _ _)]
  simp [decode8]

/-- The nibble y of SHL's word is ignored (R155). -/
theorem decodeWord_shlVx (x ign : Nibble) : decodeWord (wordXYN 0x8 x ign 0xE) = .shlVx x := by
  rw [decodeWord_primary_8 (primary_xyn _ _ _ _)]
  simp [decode8]

end Sys2Proof

namespace Sys2Proof.Machine

section
variable {s : State} {i : Instr} {x : Nibble} {a b flag : Byte} {g : State → Byte}

/-! ### What the two register updates leave in V[x] and in VF -/

theorem State.v_setV_self : (s.setV x b).v x = b := by rw [State.v_setV, if_pos rfl]

theorem State.v_flagThen_self : (s.flagThen flag x g).v x = g (s.setVF flag) := by rw [State.v_flagThen, if_pos rfl]

/-- The result is written after the flag, so VF keeps the flag only if it is not the destination (00_scope.md R14). -/
theorem State.v_flagThen_VF (hx : x ≠ 0xF) : (s.flagThen flag x g).v 0xF = flag := by
  rw [State.v_flagThen, if_neg hx.symm, if_pos rfl]

theorem frame_advance_setV : Frame [.pc, .V] s (s.advance.setV x b) := (frame_setV _ x b).of_advance

theorem frame_advance_flagThen : Frame [.pc, .V] s (s.advance.flagThen flag x g) := (frame_flagThen _ flag x g).of_advance

/-- A difference taken after the flag write: an operand that is VF reads as the flag (R149, R153). -/
theorem State.v_flagThen_sub (m n : Nibble) : (s.flagThen flag x fun t => t.v m - t.v n).v x =
    (if m = 0xF then flag else s.v m) - (if n = 0xF then flag else s.v n) := by
  rw [State.v_flagThen_self, State.v_setVF, State.v_setVF]

/-! ### The flags and the shifts as numbers -/

theorem carryFlag_eq : carryFlag a b = if a.toNat + b.toNat > 255 then 1 else 0 := by simp [carryFlag, flagByte]

theorem greaterFlag_eq : greaterFlag a b = if a.toNat > b.toNat then 1 else 0 := by simp [greaterFlag, flagByte]

theorem toNat_shrFlag : (shrFlag a).toNat = a.toNat % 2 := by
  rw [shrFlag, BitVec.toNat_and]
  exact Nat.and_one_is_mod _

/-- The mask on bit 7 and the shift by seven keep the quotient by 128. -/
theorem toNat_shlFlag : (shlFlag a).toNat = a.toNat / 128 := by
  have hmask : (a.toNat &&& 0x80) >>> 7 = (a.toNat >>> 7) % 2 :=
    (Nat.shiftRight_and_distrib ..).trans (Nat.and_one_is_mod _)
  have hshift : a.toNat >>> 7 = a.toNat / 128 := Nat.shiftRight_eq_div_pow _ _
  have hlt := a.isLt
  rw [shlFlag, BitVec.toNat_ushiftRight, BitVec.toNat_and]
  refine hmask.trans ?_
  omega

theorem toNat_ushiftRight_one : (a >>> 1).toNat = a.toNat / 2 := Nat.shiftRight_one _

theorem toNat_shiftLeft_one : (a <<< 1).toNat = a.toNat * 2 % 256 := by
  rw [BitVec.toNat_shiftLeft, Nat.shiftLeft_eq]

/-! ### Free values -/

/-- The eligible pressed keys are none exactly when no key ends the wait (45_keys_timers.md R215). -/
theorem State.waitKeys_eq_nil_iff : s.waitKeys = [] ↔ ¬ ∃ k, s.EndsWait k := by
  simp only [List.eq_nil_iff_forall_not_mem, State.mem_waitKeys, not_exists]

/-- LD Vx,K takes a free value when it ends the wait, and none when it goes on waiting (R215, R216). -/
theorem State.draws_waitKey (c : Nat) (x : Nibble) (keys : List Nat) :
    (s.waitKey c x keys).draws = if keys = [] then s.draws else s.draws + 1 := by
  cases keys <;> rfl

theorem draws_rndVxByte (x : Nibble) (kk : Byte) :
    ∃ t, exec (.rndVxByte x kk) s = .next t ∧ t.draws = s.draws + 1 := ⟨_, rfl, rfl⟩

theorem draws_ldVxK_ended (x : Nibble) (h : ∃ k, s.EndsWait k) :
    ∃ t, exec (.ldVxK x) s = .next t ∧ t.draws = s.draws + 1 := by
  refine ⟨_, rfl, (State.draws_waitKey _ _ _).trans (if_neg fun hnil => ?_)⟩
  exact State.waitKeys_eq_nil_iff.1 hnil h

theorem draws_ldVxK_waiting (x : Nibble) (h : ¬ ∃ k, s.EndsWait k) :
    ∃ t, exec (.ldVxK x) s = .next t ∧ t.draws = s.draws :=
  ⟨_, rfl, (State.draws_waitKey _ _ _).trans (if_pos (State.waitKeys_eq_nil_iff.2 h))⟩

/-- The frame column names `draws` for two instructions. -/
theorem draws_mem_writes (h : Field.draws ∈ i.writes) : (∃ x kk, i = .rndVxByte x kk) ∨ ∃ x, i = .ldVxK x := by
  cases i with
  | rndVxByte x kk => exact .inl ⟨x, kk, rfl⟩
  | ldVxK x => exact .inr ⟨x, rfl⟩
  | _ => simp [Instr.writes] at h

/-- RND and the end of a key wait alone take a free value, and they take one (42_alu.md R163, 45_keys_timers.md R216). -/
theorem exec_draws_changed (i : Instr) : EveryNext (fun t => t.draws ≠ s.draws →
    t.draws = s.draws + 1 ∧ ((∃ x kk, i = .rndVxByte x kk) ∨ ∃ x, i = .ldVxK x ∧ ∃ k, s.EndsWait k)) (exec i s) := by
  by_cases hw : Field.draws ∈ i.writes
  · obtain ⟨x, kk, rfl⟩ | ⟨x, rfl⟩ := draws_mem_writes hw
    · exact .next fun _ => ⟨rfl, .inl ⟨x, kk, rfl⟩⟩
    · by_cases hkey : ∃ k, s.EndsWait k
      · obtain ⟨t, hexec, hdraws⟩ := draws_ldVxK_ended x hkey
        exact hexec ▸ .next fun _ => ⟨hdraws, .inr ⟨x, rfl, hkey⟩⟩
      · obtain ⟨t, hexec, hdraws⟩ := draws_ldVxK_waiting x hkey
        exact hexec ▸ .next (absurd hdraws)
  · exact fun t h hne => absurd (exec_unchanged hw (by decide) t h) hne

theorem exec_draws_le (i : Instr) : EveryNext (fun t => s.draws ≤ t.draws) (exec i s) := by
  intro t h
  by_cases hsame : t.draws = s.draws
  · exact hsame.ge
  · obtain ⟨hsucc, -⟩ := exec_draws_changed i t h hsame
    omega

/-- Nor does a step lower the count: a faulting fetch and the write of `opcode` leave it (40_cycle.md R101, R108). -/
theorem step_draws_le : EveryNext (fun t => s.draws ≤ t.draws) (step s) :=
  step_everyNext le_rfl (exec_draws_le _) fun _ _ _ hu => hu

/-- No transaction lowers the count, RESET included (log entry 6). -/
theorem transact_draws_le (x : Transaction) : EveryNext (fun t => s.draws ≤ t.draws) (transact x s) := by
  cases x with
  | reset | setKey _ _ | tick | readFb | readSt | readStatus => exact .next le_rfl
  | loadRom rom =>
    intro t h
    obtain ⟨-, hrom⟩ | ⟨-, -, hrom⟩ | ⟨-, -, hrom⟩ := s.loadRom_cases rom
    · cases hrom.symm.trans h
    · cases hrom.symm.trans h
      exact (State.pokes_draws _ _ _).ge
    · cases hrom.symm.trans h
  | cycle =>
    intro t h
    obtain ⟨u, hu, rfl⟩ := State.hostCycle_next h
    exact step_draws_le u hu

end

/-- Settles O12: both flag and sum are of the old operands, and the sum is written last. -/
theorem addVxVySetsCarry : Obligations.AddVxVySetsCarry := by
  refine fun x y => ⟨decodeWord_encode (i := .addVxVy x y) rfl, fun s =>
    ⟨_, rfl, frame_advance_flagThen, rfl, ?sum, fun hx => ?carry, fun r => State.v_flagThen_other⟩⟩
  case sum => rw [State.v_flagThen_self]; exact BitVec.toNat_add _ _
  case carry => rw [State.v_flagThen_VF hx, carryFlag_eq]

/-- Settles O13: the flag is the strict comparison of the old operands, and the difference reads its operands after the flag write. -/
theorem subVxVySetsStrictFlag : Obligations.SubVxVySetsStrictFlag := by
  refine fun x y => ⟨decodeWord_encode (i := .subVxVy x y) rfl, fun s flag hflag => ?_⟩
  obtain rfl : flag = greaterFlag (s.v x) (s.v y) := hflag.trans greaterFlag_eq.symm
  exact ⟨_, rfl, frame_advance_flagThen, rfl, State.v_flagThen_sub x y, State.v_flagThen_VF,
    fun r => State.v_flagThen_other⟩

/-- Settles O15: SUB's argument with the operands exchanged. -/
theorem subnVxVySetsStrictFlag : Obligations.SubnVxVySetsStrictFlag := by
  refine fun x y => ⟨decodeWord_encode (i := .subnVxVy x y) rfl, fun s flag hflag => ?_⟩
  obtain rfl : flag = greaterFlag (s.v y) (s.v x) := hflag.trans greaterFlag_eq.symm
  exact ⟨_, rfl, frame_advance_flagThen, rfl, State.v_flagThen_sub y x, State.v_flagThen_VF,
    fun r => State.v_flagThen_other⟩

/-- Settles O14: the shift reads V[x] after the flag write, which for VF is one bit, shifted out. -/
theorem shrVxShiftsRight : Obligations.ShrVxShiftsRight := by
  refine fun x => ⟨decodeWord_shrVx x, fun s =>
    ⟨_, rfl, frame_advance_flagThen, rfl, ?shifted, fun hx => ?bit, fun r => State.v_flagThen_other⟩⟩
  case shifted =>
    rw [State.v_flagThen_self, toNat_ushiftRight_one, State.v_setVF]
    split
    · rw [toNat_shrFlag]; omega
    · rfl
  case bit => rw [State.v_flagThen_VF hx, toNat_shrFlag]

/-- Settles O16: the shift reads V[x] after the flag write, which for VF is one bit, doubled. -/
theorem shlVxShiftsLeft : Obligations.ShlVxShiftsLeft := by
  refine fun x => ⟨decodeWord_shlVx x, fun s =>
    ⟨_, rfl, frame_advance_flagThen, rfl, ?shifted, fun hx => ?bit, fun r => State.v_flagThen_other⟩⟩
  case shifted =>
    rw [State.v_flagThen_self, toNat_shiftLeft_one, State.v_setVF]
    split
    · have hlt := (s.v x).isLt
      rw [toNat_shlFlag]; omega
    · rfl
  case bit => rw [State.v_flagThen_VF hx, toNat_shlFlag]

/-- Settles O43: two instructions move the count, by one, and no transaction moves it back. -/
theorem freeValuesAreTakenOnce : Obligations.FreeValuesAreTakenOnce :=
  ⟨fun i _ => exec_draws_changed i, fun x kk _ => draws_rndVxByte x kk, fun x _ => draws_ldVxK_ended x,
    fun x _ => transact_draws_le x⟩

/-- Settles O8: one register write after the advance. -/
theorem ldVxByteLoadsImmediate : Obligations.LdVxByteLoadsImmediate := fun x kk =>
  ⟨decodeWord_encode (i := .ldVxByte x kk) rfl, fun s =>
    ⟨_, rfl, frame_advance_setV, rfl, s.advance.v_setV x kk⟩⟩

/-- Settles O9: the sum of bytes is modulo 256, and V[x] is the one register written. -/
theorem addVxByteAddsWithoutFlag : Obligations.AddVxByteAddsWithoutFlag := by
  refine fun x kk => ⟨decodeWord_encode (i := .addVxByte x kk) rfl, fun s =>
    ⟨_, rfl, frame_advance_setV, rfl, ?sum, fun r => State.v_setV_other⟩⟩
  rw [State.v_setV_self]
  exact BitVec.toNat_add _ _

/-- Settles O10: one register write after the advance. -/
theorem ldVxVyMovesRegister : Obligations.LdVxVyMovesRegister := fun x y =>
  ⟨decodeWord_encode (i := .ldVxVy x y) rfl, fun s =>
    ⟨_, rfl, frame_advance_setV, rfl, s.advance.v_setV x (s.v y)⟩⟩

/-- Settles O11: the operations on bytes are the operations on their bits, and V[x] is the one register written. -/
theorem logicOpsCombineWithoutFlag : Obligations.LogicOpsCombineWithoutFlag := by
  refine fun x y => ⟨decodeWord_encode (i := .orVxVy x y) rfl, decodeWord_encode (i := .andVxVy x y) rfl,
    decodeWord_encode (i := .xorVxVy x y) rfl, fun s =>
    ⟨⟨_, rfl, frame_advance_setV, rfl, fun b => ?or, fun r => State.v_setV_other⟩,
      ⟨_, rfl, frame_advance_setV, rfl, fun b => ?and, fun r => State.v_setV_other⟩,
      ⟨_, rfl, frame_advance_setV, rfl, fun b => ?xor, fun r => State.v_setV_other⟩⟩⟩
  case or => rw [State.v_setV_self, BitVec.getLsbD_or]
  case and => rw [State.v_setV_self, BitVec.getLsbD_and]
  case xor => rw [State.v_setV_self, BitVec.getLsbD_xor]

/-- Settles O17: the draw is masked as it is written, and the count of free values is the model's own. -/
theorem rndVxByteMasksADraw : Obligations.RndVxByteMasksADraw := by
  refine fun x kk => ⟨decodeWord_encode (i := .rndVxByte x kk) rfl, fun s =>
    ⟨_, rfl, ((frame_setV _ x _).comp (frame_drawn _)).of_advance, rfl, fun b => ?bit, fun r => ?other⟩⟩
  case bit => rw [State.drawn_v, State.rnd_eq, State.v_setV_self, BitVec.getLsbD_and]
  case other => exact State.v_setV_other (s := s.advance)

end Sys2Proof.Machine
end

section
/-! PROOFS. The index register and the memory loads and stores (43_index_memory.md): when a block access goes through and when it faults
(20_memory.md R55), and what the block of each store and load holds. -/

namespace Sys2Proof.Machine

section
variable {s a : State} {x : Nibble}

theorem frame_advance_setI (w : Word) : Frame [.pc, .I] s (s.advance.setI w) := (frame_setI _ w).of_advance

/-! ### Block accesses inside memory and past its end (20_memory.md R55) -/

theorem State.memWrite_of_exceeds {base : Nat} {bs : List Byte} (hne : bs.length ≠ 0) (hout : base + bs.length > memSize) :
    s.memWrite base bs = .error .memOutOfRange := by
  obtain ⟨hin, -⟩ | ⟨-, -, herr⟩ := s.memWrite_cases base bs
  · omega
  · exact herr

theorem State.memRead_of_fits {base n : Nat} (hfit : base + n ≤ memSize) : s.memRead base n = .ok (s.peeks base n) := by
  obtain ⟨-, hok⟩ | ⟨-, hgt, -⟩ := s.memRead_cases base n
  · exact hok
  · omega

theorem State.memRead_of_exceeds {base n : Nat} (hne : n ≠ 0) (hout : base + n > memSize) :
    s.memRead base n = .error .memOutOfRange := by
  obtain ⟨hin, -⟩ | ⟨-, -, herr⟩ := s.memRead_cases base n
  · omega
  · exact herr

/-! ### The two stores -/

/-- The three digits of a byte are themselves bytes, so none is cut off (R174). -/
theorem bcdDigits_toNat (v : Byte) : ∃ hundreds tens units, bcdDigits v = [hundreds, tens, units] ∧
    hundreds.toNat = v.toNat / 100 ∧ tens.toNat = v.toNat / 10 % 10 ∧ units.toNat = v.toNat % 10 := by
  have hv := v.isLt
  refine ⟨_, _, _, rfl, ?_, ?_, ?_⟩ <;> exact Nat.mod_eq_of_lt (by omega)

/-- LD B,Vx with I + 2 in memory (R174). -/
theorem exec_ldBVx_of_fits (hfit : s.I.toNat + 2 ≤ 0xFFF) :
    exec (.ldBVx x) s = .next (s.advance.pokes (s.ea 0) (bcdDigits (s.v x))) :=
  congrArg (settle s) (State.memWrite_of_fits (Nat.lt_succ_of_le hfit))

theorem exec_ldBVx_of_exceeds (hout : s.I.toNat + 2 > 0xFFF) :
    exec (.ldBVx x) s = .next (s.raiseFault .memOutOfRange) :=
  congrArg (settle s) (State.memWrite_of_exceeds (bs := bcdDigits (s.v x)) (Nat.succ_ne_zero 2) (Nat.succ_lt_succ hout))

/-- The block of LD [I],Vx ends at I + x (R176). -/
theorem State.ea_add_length_regBlock : s.ea 0 + (s.regBlock x).length = s.I.toNat + x.toNat + 1 := by
  rw [State.length_regBlock]; rfl

/-- LD [I],Vx with I + x in memory (R176). -/
theorem exec_ldMemVx_of_fits (hfit : s.I.toNat + x.toNat ≤ 0xFFF) :
    exec (.ldMemVx x) s = .next (s.advance.pokes (s.ea 0) (s.regBlock x)) := by
  refine congrArg (settle s) (State.memWrite_of_fits ?_)
  rw [State.ea_add_length_regBlock]
  exact Nat.succ_le_succ hfit

theorem exec_ldMemVx_of_exceeds (hout : s.I.toNat + x.toNat > 0xFFF) :
    exec (.ldMemVx x) s = .next (s.raiseFault .memOutOfRange) := by
  refine congrArg (settle s) (State.memWrite_of_exceeds (bs := s.regBlock x) ?_ ?_)
  · rw [State.length_regBlock]; exact Nat.succ_ne_zero _
  · rw [State.ea_add_length_regBlock]; exact Nat.succ_lt_succ hout

/-! ### The load -/

/-- LD Vx,[I] with I + x in memory (R178). -/
theorem exec_ldVxMem_of_fits (hfit : s.I.toNat + x.toNat ≤ 0xFFF) :
    exec (.ldVxMem x) s = .next (s.advance.loadRegs 0 (s.peeks (s.ea 0) (x.toNat + 1))) := by
  have hread : s.memRead (s.ea 0) (x.toNat + 1) = .ok (s.peeks (s.ea 0) (x.toNat + 1)) :=
    State.memRead_of_fits (Nat.succ_le_succ hfit)
  exact congrArg (fun r => settle s (r.map (s.advance.loadRegs 0))) hread

theorem exec_ldVxMem_of_exceeds (hout : s.I.toNat + x.toNat > 0xFFF) :
    exec (.ldVxMem x) s = .next (s.raiseFault .memOutOfRange) := by
  have hread : s.memRead (s.ea 0) (x.toNat + 1) = .error .memOutOfRange :=
    State.memRead_of_exceeds (Nat.succ_ne_zero _) (Nat.succ_lt_succ hout)
  exact congrArg (fun r => settle s (r.map (s.advance.loadRegs 0))) hread

/-- Registers loaded from memory: V0 to Vx hold the bytes from `base` on, the registers above are kept (R178). -/
theorem State.v_loadRegs_peeks (base : Nat) (k : Nibble) : (a.loadRegs 0 (s.peeks base (x.toNat + 1))).v k =
    if k.toNat ≤ x.toNat then s.peek (base + k.toNat) else a.v k := by
  have hx := x.isLt
  have hlen := s.length_peeks base (x.toNat + 1)
  split
  case isTrue hk => rw [State.v_loadRegs _ _ _ (by omega), dif_pos (by omega), State.getElem_peeks, Nat.sub_zero]
  case isFalse hk => exact State.v_loadRegs_above (by omega) hlen

end

/-- Settles O21: the block of three digits lies inside memory and is written, or it does not and LD B faults. -/
theorem ldBVxStoresDigits : Obligations.LdBVxStoresDigits := by
  refine fun x => ⟨decodeWord_encode (i := .ldBVx x) rfl, fun s => ⟨fun hfit => ?_, exec_ldBVx_of_exceeds⟩⟩
  refine ⟨_, exec_ldBVx_of_fits hfit, (frame_pokes _ _ _).of_advance, State.pokes_pc _ _ _,
    fun b hb => State.peek_pokes_outside (s := s.advance) hb, fun hm => ?digits⟩
  obtain ⟨hundreds, tens, units, hdigits, hh, ht, hu⟩ := bcdDigits_toNat (s.v x)
  have hread {j : Nat} {b : Byte} (hb : [hundreds, tens, units][j]? = some b) :
      ((s.advance.pokes (s.ea 0) (bcdDigits (s.v x))).peek (s.I.toNat + j)).toNat = b.toNat :=
    congrArg BitVec.toNat (State.peek_pokes_of_getElem? (s := s.advance) hm (Nat.lt_succ_of_le hfit) (hdigits ▸ hb))
  exact ⟨(hread (j := 0) rfl).trans hh, (hread (j := 1) rfl).trans ht, (hread (j := 2) rfl).trans hu⟩

/-- Settles O22: the block of V0 to Vx lies inside memory and is written, or it does not and LD [I] faults. -/
theorem ldMemVxStoresRegisters : Obligations.LdMemVxStoresRegisters := by
  refine fun x => ⟨decodeWord_encode (i := .ldMemVx x) rfl, fun s => ⟨fun hfit => ?_, exec_ldMemVx_of_exceeds⟩⟩
  refine ⟨_, exec_ldMemVx_of_fits hfit, (frame_pokes _ _ _).of_advance, State.pokes_pc _ _ _,
    fun b hb => ?outside, fun hm k hk => ?inside⟩
  case outside => exact State.peek_pokes_outside (s := s.advance) (by rwa [State.length_regBlock])
  case inside =>
    refine State.peek_pokes_of_getElem? (s := s.advance) hm ?_ (State.getElem?_regBlock hk)
    rw [State.ea_add_length_regBlock]
    exact Nat.succ_le_succ hfit

/-- Settles O23: the block lies inside memory and is loaded into V0 to Vx, or it does not and LD Vx,[I] faults. -/
theorem ldVxMemLoadsRegisters : Obligations.LdVxMemLoadsRegisters := fun x =>
  ⟨decodeWord_encode (i := .ldVxMem x) rfl, fun s => ⟨fun hfit =>
    ⟨_, exec_ldVxMem_of_fits hfit, (frame_loadRegs _ _ _).of_advance, State.loadRegs_pc _ _ _,
      State.v_loadRegs_peeks (s.ea 0)⟩, exec_ldVxMem_of_exceeds⟩⟩

/-- Settles O18: one write of I after the advance, the address field widened. -/
theorem ldIAddrLoadsIndex : Obligations.LdIAddrLoadsIndex := fun nnn =>
  ⟨decodeWord_encode (i := .ldIAddr nnn) rfl, fun _ =>
    ⟨_, rfl, frame_advance_setI _, rfl, exec_ldIAddr_I nnn _ rfl⟩⟩

/-- Settles O19: one write of I after the advance, the sum of words modulo 2^16. -/
theorem addIVxAddsModulo : Obligations.AddIVxAddsModulo := fun x =>
  ⟨decodeWord_encode (i := .addIVx x) rfl, fun _ =>
    ⟨_, rfl, frame_advance_setI _, rfl, exec_addIVx_I x _ rfl⟩⟩

/-- Settles O20: one write of I after the advance, and the address stays below 2^16 for every byte in V[x]. -/
theorem ldFVxPointsAtGlyph : Obligations.LdFVxPointsAtGlyph := fun x =>
  ⟨decodeWord_encode (i := .ldFVx x) rfl, fun _ =>
    ⟨_, rfl, frame_advance_setI _, rfl, exec_ldFVx_I x _ rfl⟩⟩

end Sys2Proof.Machine
end

section
/-! PROOFS. The display (44_display.md): CLS and its words (R190), when DRW draws and when it faults (R192, R195), what a draw leaves in
the cells and in VF, and two draws at one place (R197). -/

namespace Sys2Proof

/-- The middle byte of CLS's word is ignored (R77, R190). -/
theorem decodeWord_cls (ign : Byte) : decodeWord (0x0#4 ++ ign ++ 0x0#4) = .cls := by
  refine (congrArg decodeWord (nibble_byte_nibble_eq_nnn 0x0 0x0 ign)).trans ?_
  rw [decodeWord_primary_0 (primary_nnn _ _)]
  simp [decode0, lowNibble_append]

end Sys2Proof

namespace Sys2Proof.Machine

section
variable {s t u : State} {x y n : Nibble} {c : Nat}

theorem frame_advance_clearFb (s : State) : Frame [.pc, .fb] s s.advance.clearFb := (frame_clearFb _).of_advance

theorem frame_setOpcode (s : State) (w : Word) : Frame [.opcode] s { s with opcode := w } := fun f hf => by
  cases f <;> simp_all [Unchanged, State.peek, State.v, State.cell]

/-- A frame that names a field which is in fact as before. -/
theorem Frame.of_unchanged {f : Field} {l : List Field} (h : Frame (f :: l) s t) (hf : Unchanged s t f) : Frame l s t :=
  fun g hg => by
    by_cases he : g = f
    · exact he ▸ hf
    · exact h g fun hm => (List.mem_cons.1 hm).elim he hg

/-! ### When DRW draws and when it faults (R192, R195) -/

/-- Every row of an n-row sprite at I lies in memory; a sprite without rows reads none (R196). -/
def State.RowsInMemory (s : State) (n : Nibble) : Prop := n.toNat = 0 ∨ s.I.toNat + (n.toNat - 1) ≤ 0xFFF

/-- The cells DRW Vx,Vy,n visits, in order. -/
def State.spriteTargets (s : State) (x y n : Nibble) : List Nat :=
  spriteCells (startColumn (s.v x)) (startRow s.params.drwYWrap (s.v y)) (s.peeks (s.ea 0) n.toNat)

theorem State.mem_spriteTargets : c ∈ s.spriteTargets x y n ↔ s.SpriteHits x y n c := s.mem_sprite_iff x y n c

theorem State.nodup_spriteTargets : (s.spriteTargets x y n).Nodup := nodup_spriteCells _ _ _

/-- What DRW leaves when it does not fault: VF cleared, then every target drawn. -/
def State.drawnSprite (s : State) (x y n : Nibble) : State := (s.advance.setVF 0).drawCells (s.spriteTargets x y n)

/-- The sprite is read first; a fault of the read ends the handler (R238). -/
theorem exec_drw_of_memRead {r : Except FaultCode (List Byte)} (hread : s.memRead (s.ea 0) n.toNat = r) :
    exec (.drwVxVyN x y n) s = settle s (r.bind (s.advance.drawSprite (startColumn (s.v x)) (startRow s.params.drwYWrap (s.v y)))) :=
  hread ▸ rfl

theorem State.memRead_of_rowsInMemory (hrows : s.RowsInMemory n) :
    s.memRead (s.ea 0) n.toNat = .ok (s.peeks (s.ea 0) n.toNat) := by
  obtain ⟨-, hok⟩ | ⟨hne, hgt, -⟩ := s.memRead_cases (s.ea 0) n.toNat
  · exact hok
  · simp only [State.RowsInMemory, State.ea, memSize] at hrows hgt
    omega

theorem exec_drw_of_row_outside (hne : n.toNat ≠ 0) (hout : s.I.toNat + (n.toNat - 1) > 0xFFF) :
    exec (.drwVxVyN x y n) s = .next (s.raiseFault .memOutOfRange) :=
  exec_drw_of_memRead (State.memRead_of_exceeds hne (by simp only [State.ea, memSize]; omega))

theorem State.all_spriteTargets_iff :
    ((s.spriteTargets x y n).all fun c => decide (c ≤ 2047)) = true ↔ ∀ c, s.SpriteHits x y n c → c ≤ 2047 := by
  simp only [List.all_eq_true, decide_eq_true_eq, State.mem_spriteTargets]

theorem exec_drw_of_inside (hrows : s.RowsInMemory n) (hcells : ∀ c, s.SpriteHits x y n c → c ≤ 2047) :
    exec (.drwVxVyN x y n) s = .next (s.drawnSprite x y n) := by
  rw [exec_drw_of_memRead (State.memRead_of_rowsInMemory hrows)]
  exact congrArg (settle s) (if_pos (State.all_spriteTargets_iff.2 hcells))

theorem exec_drw_of_cell_outside (hrows : s.RowsInMemory n) (hout : ∃ c, s.SpriteHits x y n c ∧ c > 2047) :
    exec (.drwVxVyN x y n) s = .next (s.raiseFault .fbOutOfRange) := by
  obtain ⟨c, hc, hgt⟩ := hout
  rw [exec_drw_of_memRead (State.memRead_of_rowsInMemory hrows)]
  exact congrArg (settle s) (if_neg fun hall => absurd (State.all_spriteTargets_iff.1 hall c hc) (by omega))

/-! ### What a draw leaves -/

/-- `t` is `s` after a draw of DRW Vx,Vy,n that did not fault (R192): the targeted cells are flipped, VF tells whether one of them was on,
and nothing else changed but pc. -/
structure DrawsSprite (x y n : Nibble) (s t : State) : Prop where
  frame : Frame [.pc, .V, .fb] s t
  pc : t.pc = s.pc + 2
  flipped : ∀ c, s.SpriteHits x y n c → t.cell c = !s.cell c
  kept : ∀ c, ¬ s.SpriteHits x y n c → t.cell c = s.cell c
  collision : (∃ c, s.SpriteHits x y n c ∧ s.cell c = true) → t.v 0xF = 1
  noCollision : (∀ c, s.SpriteHits x y n c → s.cell c = false) → t.v 0xF = 0
  other : ∀ r, r ≠ 0xF → t.v r = s.v r

/-- A cell is flipped once for being a target, as no target comes twice. -/
theorem State.cell_drawnSprite (hcells : ∀ c, s.SpriteHits x y n c → c ≤ 2047) (c : Nat) :
    (s.drawnSprite x y n).cell c = (s.cell c ^^ decide (c ∈ s.spriteTargets x y n)) :=
  State.cell_drawCells _ _ State.nodup_spriteTargets (fun c hc => hcells c (State.mem_spriteTargets.1 hc)) c

/-- The cells that VF is compared with are the old ones. -/
theorem State.v_drawnSprite_VF :
    (s.drawnSprite x y n).v 0xF = if ∃ c ∈ s.spriteTargets x y n, s.cell c = true then 1 else 0 := by
  rw [State.drawnSprite, State.v_drawCells _ _ State.nodup_spriteTargets]
  simp [State.v_setVF]

theorem drawsSprite_drawnSprite (hcells : ∀ c, s.SpriteHits x y n c → c ≤ 2047) :
    DrawsSprite x y n s (s.drawnSprite x y n) where
  frame := (((frame_setV _ 0xF 0).comp (frame_drawCells _ _)).of_advance).mono (by simp)
  pc := State.drawCells_pc _ _
  flipped c hc := by
    rw [State.cell_drawnSprite hcells, decide_eq_true (State.mem_spriteTargets.2 hc), Bool.xor_true]
  kept c hc := by
    rw [State.cell_drawnSprite hcells, decide_eq_false (mt State.mem_spriteTargets.1 hc), Bool.xor_false]
  collision := fun ⟨c, hc, hon⟩ => State.v_drawnSprite_VF.trans (if_pos ⟨c, State.mem_spriteTargets.2 hc, hon⟩)
  noCollision hoff := State.v_drawnSprite_VF.trans (if_neg fun ⟨c, hc, hon⟩ =>
    Bool.false_ne_true ((hoff c (State.mem_spriteTargets.1 hc)).symm.trans hon))
  other r hr := State.v_drawCells_other (s := s.advance) hr _ _ _

/-- A DRW that left the core running raised neither fault, so it drew (R192, R195). -/
theorem exec_drw_running (h : exec (.drwVxVyN x y n) s = .next t) (ht : t.status = .running) :
    s.RowsInMemory n ∧ (∀ c, s.SpriteHits x y n c → c ≤ 2047) ∧ DrawsSprite x y n s t := by
  have hfault {code : FaultCode} (hf : exec (.drwVxVyN x y n) s = .next (s.raiseFault code)) : False := by
    cases hf.symm.trans h
    cases ht
  have hrows : s.RowsInMemory n := by
    by_contra hrows
    obtain ⟨hne, hout⟩ := not_or.1 hrows
    exact hfault (exec_drw_of_row_outside hne (by omega))
  have hcells : ∀ c, s.SpriteHits x y n c → c ≤ 2047 := by
    by_contra! hout
    exact hfault (exec_drw_of_cell_outside hrows hout)
  cases (exec_drw_of_inside hrows hcells).symm.trans h
  exact ⟨hrows, hcells, drawsSprite_drawnSprite hcells⟩

/-! ### Two draws at one place (R197) -/

/-- A draw leaves the sprite where it was, unless a coordinate is VF. -/
theorem DrawsSprite.spriteHits_iff (h : DrawsSprite x y n s t) (hx : x ≠ 0xF) (hy : y ≠ 0xF) :
    t.SpriteHits x y n c ↔ s.SpriteHits x y n c := by
  have hpeek : ∀ a, t.peek a = s.peek a := h.frame .mem (by decide)
  have hI : t.I = s.I := h.frame .I (by decide)
  have hparams : t.params = s.params := h.frame .params (by decide)
  simp only [State.SpriteHits, hpeek, hI, hparams, h.other x hx, h.other y hy]

/-- Both draws flip the same cells. -/
theorem DrawsSprite.cell_twice (h : DrawsSprite x y n s t) (h' : DrawsSprite x y n t u)
    (hits : ∀ c, t.SpriteHits x y n c ↔ s.SpriteHits x y n c) (c : Nat) : u.cell c = s.cell c := by
  by_cases hc : s.SpriteHits x y n c
  · rw [h'.flipped c ((hits c).2 hc), h.flipped c hc, Bool.not_not]
  · rw [h'.kept c (mt (hits c).1 hc), h.kept c hc]

end

/-- Settles O25: the rows are read or MEM_OUT_OF_RANGE is raised; then every target is in the framebuffer and drawn, or one is not and
FB_OUT_OF_RANGE is raised. -/
theorem drwDrawsOrFaults : Obligations.DrwDrawsOrFaults := by
  refine fun x y n => ⟨decodeWord_encode (i := .drwVxVyN x y n) rfl, fun s =>
    ⟨fun hrows hcells => ?draws, exec_drw_of_row_outside, exec_drw_of_cell_outside⟩⟩
  obtain ⟨hframe, hpc, hflipped, hkept, hcollision, hnone, hother⟩ := drawsSprite_drawnSprite hcells
  exact ⟨_, exec_drw_of_inside hrows hcells, hframe, hpc, hflipped, hkept, hcollision, hnone, hother⟩

/-- Settles O26: the second draw is at the same place, so it faults no more than the first, flips the same cells back, and meets an on
cell exactly where the first met an off one. -/
theorem drawingTwiceRestores : Obligations.DrawingTwiceRestores := by
  intro x y n s t hx hy _ ht h
  obtain ⟨hrows, hcells, hfirst⟩ := exec_drw_running h ht
  have hits (c : Nat) : t.SpriteHits x y n c ↔ s.SpriteHits x y n c := hfirst.spriteHits_iff hx hy
  have hrows' : t.RowsInMemory n := by
    have hI : t.I = s.I := hfirst.frame .I (by decide)
    rwa [State.RowsInMemory, hI]
  have hcells' : ∀ c, t.SpriteHits x y n c → c ≤ 2047 := fun c hc => hcells c ((hits c).1 hc)
  have hsecond := drawsSprite_drawnSprite hcells'
  have hcell := hfirst.cell_twice hsecond hits
  refine ⟨_, exec_drw_of_inside hrows' hcells', ?frame, hcell, ?collision, ?noCollision, fun r hr => ?other⟩
  case frame => exact ((hfirst.frame.trans hsecond.frame).mono (l' := [.fb, .pc, .V]) (by simp)).of_unchanged hcell
  case collision =>
    rintro ⟨c, hc, hoff⟩
    exact hsecond.collision ⟨c, (hits c).2 hc, by rw [hfirst.flipped c hc, hoff]; rfl⟩
  case noCollision =>
    intro hon
    refine hsecond.noCollision fun c hc => ?_
    have hc' := (hits c).1 hc
    rw [hfirst.flipped c hc', hon c hc']
    rfl
  case other => rw [hsecond.other r hr, hfirst.other r hr]

/-- Settles O24: the advance, then every cell off. -/
theorem clsClearsScreen : Obligations.ClsClearsScreen :=
  ⟨decodeWord_cls, fun s => ⟨_, rfl, frame_advance_clearFb s, rfl, s.advance.cell_clearFb⟩⟩

/-- Settles O60: the word 0x0000 is one of CLS's. -/
theorem zeroedMemoryRunsCls : Obligations.ZeroedMemoryRunsCls := by
  intro s hs hpc hhigh hlow
  have hword : s.peek s.pc.toNat ++ s.peek (s.pc.toNat + 1) = (0x0000 : Word) := by rw [hhigh, hlow]; rfl
  exact ⟨_, step_of_word hs hpc hword (decodeWord_cls 0x00) rfl hs, (frame_advance_clearFb s).comp (frame_setOpcode _ _), rfl, rfl,
    s.advance.cell_clearFb⟩

end Sys2Proof.Machine
end

section
/-! PROOFS. Keypad and timers (45_keys_timers.md): the words of SKP and SKNP with their ignored bits (30_encoding.md R81), how a key test
ends (R210 to R212), what LD Vx,K does while it waits and when a key ends the wait (R215, R216), and the moves to and from the timers. -/

namespace Sys2Proof

section
variable (x ign : Nibble)

/-- Bits 7-4 of SKP's word are ignored (R79, R210). -/
theorem decodeWord_skpVx : decodeWord (wordXYN 0xE x ign 0xE) = .skpVx x := by
  rw [decodeWord_primary_E (primary_xyn _ _ _ _)]
  simp [decodeE]

/-- Bits 7-4 of SKNP's word are ignored (R79, R211). -/
theorem decodeWord_sknpVx : decodeWord (wordXYN 0xE x ign 0x1) = .sknpVx x := by
  rw [decodeWord_primary_E (primary_xyn _ _ _ _)]
  simp [decodeE]

end

end Sys2Proof

namespace Sys2Proof.Machine

section
variable {s : State} {x : Nibble} {b : Byte} {keys : List Nat}

/-! ### The key tests -/

/-- A skip on a key's state, for SKP (R210). -/
theorem State.advance_skipIf_pc (down : Bool) :
    (s.advance.skipIf down).pc = s.pc + if down = true then 4 else 2 := by
  rw [State.skipIf_pc, State.advance_pc, BitVec.add_assoc]
  cases down <;> rfl

/-- A skip on its opposite, for SKNP (R211). -/
theorem State.advance_skipIf_not_pc (down : Bool) :
    (s.advance.skipIf !down).pc = s.pc + if down = true then 2 else 4 := by
  rw [State.advance_skipIf_pc]
  cases down <;> rfl

theorem State.testKey_of_key {k : Fin 16} (h : b.toNat = k.val) : s.testKey b = .ok s.key[k] := by
  obtain ⟨-, htest⟩ | ⟨hout, -⟩ := s.testKey_cases b
  · rw [htest, h, State.pressed_eq]
  · omega

theorem State.testKey_of_exceeds (h : b.toNat > 0x0F) : s.testKey b = .error .keyOutOfRange := if_pos h

/-- The end of SKP and of SKNP on a key number: `skipOn` is the condition they make of the key's state (R210, R211). -/
theorem settle_testKey_of_key (skipOn : Bool → Bool) {k : Fin 16} (h : b.toNat = k.val) :
    settle s ((s.testKey b).map fun down => s.advance.skipIf (skipOn down)) = .next (s.advance.skipIf (skipOn s.key[k])) := by
  rw [State.testKey_of_key h]
  rfl

/-- Their end on any other byte (R212). -/
theorem settle_testKey_of_exceeds (skipOn : Bool → Bool) (h : b.toNat > 0x0F) :
    settle s ((s.testKey b).map fun down => s.advance.skipIf (skipOn down)) = .next (s.raiseFault .keyOutOfRange) := by
  rw [State.testKey_of_exceeds h]
  rfl

/-! ### The key wait -/

/-- The step back undoes the cycle's advance (R215). -/
theorem State.rewind_advance : s.advance.rewind = s := congrArg (fun w => { s with pc := w }) (advance_rewind s.pc)

/-- A cycle that waits leaves the very state it began on (R215). -/
theorem exec_ldVxK_waiting (x : Nibble) (h : ¬ ∃ k, s.EndsWait k) : exec (.ldVxK x) s = .next s := by
  have hexec : exec (.ldVxK x) s = .next (s.advance.waitKey (Config.keyChoice s.draws) x s.waitKeys) := rfl
  rw [hexec, State.waitKeys_eq_nil_iff.2 h, State.waitKey, State.rewind_advance]

theorem State.waitKeys_eq_cons (h : ∃ k, s.EndsWait k) : ∃ k ks, s.waitKeys = k :: ks :=
  List.exists_cons_of_ne_nil fun hnil => State.waitKeys_eq_nil_iff.1 hnil h

/-- Ending the wait does not step back (R215). -/
theorem State.waitKey_pc (c : Nat) (hkeys : keys ≠ []) : (s.waitKey c x keys).pc = s.pc := by
  cases keys with
  | nil => exact absurd rfl hkeys
  | cons k ks => rfl

/-- Whatever the choice, the key chosen ends the wait (R216). -/
theorem State.endsWait_chooseKey {k : Nat} {ks : List Nat} (h : s.waitKeys = k :: ks) (c : Nat) :
    s.EndsWait (chooseKey c k ks) :=
  (s.mem_waitKeys _).1 (h ▸ chooseKey_mem c k ks)

/-- V[x] holds the number of the chosen key, which is below 16 and so fits a byte. -/
theorem State.toNat_v_waitKey {k : Nat} {ks : List Nat} (h : s.waitKeys = k :: ks) (c : Nat) :
    ((s.advance.waitKey c x s.waitKeys).v x).toNat = chooseKey c k ks := by
  have hlt := s.lt_of_endsWait (State.endsWait_chooseKey h c)
  rw [h, State.waitKey, State.drawn_v, State.v_setV_self, BitVec.toNat_ofNat, Nat.mod_eq_of_lt (by omega)]

/-- Whatever the choice, V[x] ends as a key that ends the wait (R215, R216). -/
theorem State.waitKey_takes_endsWait (h : ∃ k, s.EndsWait k) (c : Nat) (x : Nibble) :
    ∃ k, s.EndsWait k ∧ ((s.advance.waitKey c x s.waitKeys).v x).toNat = k := by
  obtain ⟨k, ks, hkeys⟩ := State.waitKeys_eq_cons h
  exact ⟨_, State.endsWait_chooseKey hkeys c, State.toNat_v_waitKey hkeys c⟩

/-- Every key that ends the wait is the one some choice takes (R216). -/
theorem State.exists_choice_of_endsWait {j : Nat} (h : s.EndsWait j) (x : Nibble) :
    ∃ c, ((s.advance.waitKey c x s.waitKeys).v x).toNat = j := by
  obtain ⟨k, ks, hkeys⟩ := State.waitKeys_eq_cons ⟨j, h⟩
  obtain ⟨c, hc⟩ := chooseKey_surj (hkeys ▸ (s.mem_waitKeys j).2 h)
  exact ⟨c, (State.toNat_v_waitKey hkeys c).trans hc⟩

/-! ### The timers -/

/-- The sound is on while ST is not 0 (10_state.md R33). -/
theorem State.soundOn_eq : s.soundOn = decide (s.ST ≠ 0) := by
  simp [State.soundOn, bne, Bool.beq_eq_decide_eq]

end

/-- Settles O29: with no eligible key the handler ends on the state it began on; else it does not step back, and V[x] takes one. -/
theorem ldVxKWaitsForKey : Obligations.LdVxKWaitsForKey := by
  refine fun x => ⟨decodeWord_encode (i := .ldVxK x) rfl, fun s => ⟨fun hnone => ?waits, fun hkey => ?ends⟩⟩
  case waits => exact ⟨s, exec_ldVxK_waiting x (not_exists.2 hnone), .refl _ _⟩
  case ends =>
    obtain ⟨k, hk, hv⟩ := State.waitKey_takes_endsWait hkey (Config.keyChoice s.draws) x
    have hne : s.waitKeys ≠ [] := fun hnil => State.waitKeys_eq_nil_iff.1 hnil hkey
    exact ⟨_, k, rfl, hk, (frame_waitKey s.advance _ x _).of_advance.mono (by simp), State.waitKey_pc _ hne, hv,
      fun r hr => State.v_waitKey_other (s := s.advance) hr _ _⟩

/-- Settles O30: every choice takes a pressed eligible key, and every such key is taken by some choice. -/
theorem everyPressedKeyCanEndTheWait : Obligations.EveryPressedKeyCanEndTheWait := fun _ x =>
  ⟨rfl, fun hkey c => State.waitKey_takes_endsWait hkey c x, fun _ hk => State.exists_choice_of_endsWait hk x⟩

/-- Settles O27: V[x] is a key number and the two skip on that key's state and on its opposite, or it is above 0x0F and both fault. -/
theorem keySkipsTestOneKey : Obligations.KeySkipsTestOneKey := by
  refine fun x => ⟨fun ign => ⟨decodeWord_skpVx x ign, decodeWord_sknpVx x ign⟩, fun s => ⟨fun k hk => ?key, fun hout => ?fault⟩⟩
  case key =>
    exact ⟨⟨_, settle_testKey_of_key id hk, frame_advance_skipIf s _, State.advance_skipIf_pc _⟩,
      ⟨_, settle_testKey_of_key not hk, frame_advance_skipIf s _, State.advance_skipIf_not_pc _⟩⟩
  case fault => exact ⟨settle_testKey_of_exceeds id hout, settle_testKey_of_exceeds not hout⟩

/-- Settles O28: one register write after the advance. -/
theorem ldVxDtReadsDelayTimer : Obligations.LdVxDtReadsDelayTimer := fun x =>
  ⟨decodeWord_encode (i := .ldVxDt x) rfl, fun s =>
    ⟨_, rfl, frame_advance_setV, rfl, s.advance.v_setV x s.DT⟩⟩

/-- Settles O31: one timer write each after the advance, and the sound is what ST then says. -/
theorem timerWritesSetTimers : Obligations.TimerWritesSetTimers := fun x =>
  ⟨decodeWord_encode (i := .ldDtVx x) rfl, decodeWord_encode (i := .ldStVx x) rfl, fun _ =>
    ⟨⟨_, rfl, (frame_setDT _ _).of_advance, rfl, rfl⟩,
      ⟨_, rfl, (frame_setST _ _).of_advance, rfl, rfl, State.soundOn_eq⟩⟩⟩

end Sys2Proof.Machine
end

section
/-! PROOFS. Faults and the host (60_exceptions.md): which faults a handler ends in (R231, R238), what holds after every transaction
(R251), LOAD_ROM (70_reset_and_hazards.md R271, R272), the keypad and the timers (R252, R253), and the reads (R254, R255). -/

namespace Sys2Proof.Machine

section
variable {s t a : State} {P : State → Prop} {x : Transaction} {rom : List Byte}

/-- R231's column lists FETCH_OUT_OF_RANGE for no instruction: only the fetch raises it. -/
theorem fetchOutOfRange_not_mem_faults (i : Instr) : FaultCode.fetchOutOfRange ∉ i.faults := by
  cases i <;> simp [Instr.faults]

/-! ### Frame rules of the host's updates -/

theorem frame_closeLoad (s : State) : Frame [.loadOpen] s s.closeLoad := fun f hf => by
  cases f <;> simp_all [Unchanged]

theorem frame_setKey (s : State) (k : Nibble) (down : Bool) : Frame [.key] s (s.setKey k down) := fun f hf => by
  cases f <;> simp_all [Unchanged]

theorem frame_tick (s : State) : Frame [.DT, .ST] s s.tick := fun f hf => by
  cases f <;> simp_all [Unchanged]

/-- R253: one less, or 0, as the subtraction of naturals has it. -/
theorem toNat_tickTimer (b : Byte) : (tickTimer b).toNat = b.toNat - 1 := by
  unfold tickTimer
  split <;> bv_omega

/-! ### What holds after every transaction -/

/-- What a LOAD_ROM that was not refused did (R257, 70_reset_and_hazards.md R271, R272). -/
theorem State.loadRom_next (h : s.loadRom rom = .next t) :
    rom.length ≤ maxRom ∧ t = (s.pokes romBase rom).closeLoad := by
  obtain ⟨-, hrom⟩ | ⟨hlen, -, hrom⟩ | ⟨-, -, hrom⟩ := s.loadRom_cases rom <;> cases hrom.symm.trans h
  exact ⟨hlen, rfl⟩

/-- A property of the state holds after a transaction (R251) if each update that a transaction can make establishes it; the reads
make none. -/
theorem transact_everyNext (hs : P s) (hreset : x = .reset → P s.afterReset)
    (hload : ∀ rom : List Byte, rom.length ≤ maxRom → P (s.pokes romBase rom).closeLoad)
    (hcycle : EveryNext (fun u => P u.closeLoad) (step s)) (hkey : ∀ k down, P (s.setKey k down)) (htick : P s.tick) :
    EveryNext P (transact x s) := by
  cases x with
  | reset => exact .next (hreset rfl)
  | loadRom rom =>
    intro t h
    obtain ⟨hlen, rfl⟩ := State.loadRom_next h
    exact hload rom hlen
  | cycle =>
    intro t h
    obtain ⟨u, hu, rfl⟩ := State.hostCycle_next h
    exact hcycle u hu
  | setKey k down => exact .next (hkey k down)
  | tick => exact .next htick
  | readFb | readSt | readStatus => exact .next hs

/-- A host's run that answered a state went through its first transaction. -/
theorem transactAll_cons_next {xs : List Transaction} (h : transactAll (x :: xs) s = .next t) :
    ∃ u, transact x s = .next u ∧ transactAll xs u = .next t := by
  cases hx : transact x s with
  | next u => exact ⟨u, rfl, by simpa only [transactAll, hx] using h⟩
  | fault r => simp [transactAll, hx] at h
  | refused r => simp [transactAll, hx] at h

/-- What each transaction of a list keeps, the host's run of the list keeps. -/
theorem transactAll_everyNext {xs : List Transaction} (hstep : ∀ x ∈ xs, ∀ u, P u → EveryNext P (transact x u)) (hs : P s) :
    EveryNext P (transactAll xs s) := by
  induction xs generalizing s with
  | nil => exact .next hs
  | cons x xs ih =>
    intro t h
    obtain ⟨u, hu, hrest⟩ := transactAll_cons_next h
    exact ih (fun y hy => hstep y (List.mem_cons_of_mem x hy)) (hstep x List.mem_cons_self s hs u hu) t hrest

/-! ### The canonical form of memory -/

/-- The canonical form is of two fields. -/
theorem State.MemOk.of_eq (h : s.MemOk) (hmem : t.mem = s.mem) (hparams : t.params = s.params) : t.MemOk := by
  rw [State.MemOk, hmem, hparams]
  exact h

theorem State.MemOk.skipIf (h : a.MemOk) (c : Bool) : (a.skipIf c).MemOk :=
  h.of_eq (a.skipIf_mem c) (a.skipIf_params c)

theorem State.MemOk.call {w : Word} (h : a.MemOk) (ht : a.call w = .ok t) : t.MemOk := by
  rcases Nat.lt_or_ge a.sp.val 16 with hsp | hsp
  · rw [a.call_of_lt w hsp] at ht
    cases ht
    exact h
  · rw [a.call_of_full w (by omega)] at ht
    cases ht

theorem State.MemOk.ret (h : a.MemOk) (ht : a.ret = .ok t) : t.MemOk := by
  rcases a.sp_cases with hsp | ⟨k, hsp, hk⟩
  · rw [a.ret_of_empty hsp] at ht
    cases ht
  · rw [a.ret_of_succ hsp hk] at ht
    cases ht
    exact h

/-- A store that does not fault lies inside memory (20_memory.md R55). -/
theorem State.MemOk.memWrite {base : Nat} {bs : List Byte} (h : a.MemOk) (ht : a.memWrite base bs = .ok t) : t.MemOk := by
  obtain ⟨hin, hok⟩ | ⟨-, -, herr⟩ := a.memWrite_cases base bs
  · cases hok.symm.trans ht
    exact State.memOk_pokes h hin
  · cases herr.symm.trans ht

theorem State.MemOk.waitKey (h : a.MemOk) (c : Nat) (x : Nibble) (keys : List Nat) : (a.waitKey c x keys).MemOk := by
  cases keys with
  | nil => exact h
  | cons k ks => exact h

/-- What holds of a key test that faults, and of a skip and of none, holds of SKP's and of SKNP's end (45_keys_timers.md R210 to
R212). -/
theorem everyNext_testKey {k : Byte} (hfault : ∀ c, P (s.raiseFault c)) (hskip : ∀ b, P (s.advance.skipIf b))
    (c : Bool → Bool) : EveryNext P (settle s ((s.testKey k).map fun down => s.advance.skipIf (c down))) := by
  refine .settle hfault fun t ht => ?_
  obtain ⟨b, rfl⟩ := testKey_ok ht
  exact hskip b

/-- Every instruction keeps the canonical form: two write memory, and a store that goes through writes inside it. -/
theorem exec_memOk (h : s.MemOk) (i : Instr) : EveryNext State.MemOk (exec i s) := by
  have ha : s.advance.MemOk := h
  have hfault (c : FaultCode) : (s.raiseFault c).MemOk := h
  cases i with
  | ret => exact .settle hfault fun t => ha.ret
  | callAddr nnn => exact .settle hfault fun t => ha.call
  | seVxByte _ _ | sneVxByte _ _ | seVxVy _ _ | sneVxVy _ _ => exact .next (ha.skipIf _)
  | skpVx _ => exact everyNext_testKey hfault ha.skipIf id
  | sknpVx _ => exact everyNext_testKey hfault ha.skipIf not
  | drwVxVyN _ _ _ =>
    refine .settle hfault fun t ht => ?_
    rw [drw_ok ht]
    exact ha.of_eq (State.drawCells_mem _ _) (State.drawCells_params _ _)
  | ldVxMem _ =>
    refine .settle hfault fun t ht => ?_
    rw [ldVxMem_ok ht]
    exact ha.of_eq (State.loadRegs_mem _ _ _) (State.loadRegs_params _ _ _)
  | ldBVx _ | ldMemVx _ => exact .settle hfault fun t => ha.memWrite
  | ldVxK x => exact .next (ha.waitKey _ x _)
  | _ => exact .next h

theorem step_memOk (h : s.MemOk) : EveryNext State.MemOk (step s) :=
  step_everyNext h (exec_memOk h _) fun _ _ _ hu => hu

theorem memOk_afterReset (s : State) : s.afterReset.MemOk := memOk_resetWith s.params

/-- A ROM that fits lies inside memory (70_reset_and_hazards.md R272). -/
theorem romBase_add_le_memSize (h : rom.length ≤ maxRom) : romBase + rom.length ≤ memSize := by
  simp only [maxRom, memSize, romBase] at *
  omega

theorem transact_memOk (h : s.MemOk) (x : Transaction) : EveryNext State.MemOk (transact x s) :=
  transact_everyNext h (fun _ => memOk_afterReset s)
    (fun _ hlen => State.memOk_pokes h (.inr (romBase_add_le_memSize hlen))) (step_memOk h) (fun _ _ => h) h

/-! ### The bounds of pc and of the return addresses -/

/-- The bounds are of two fields, which no transaction but RESET and CYCLE writes. -/
theorem transact_pcOk (h : s.PcOk) (x : Transaction) : EveryNext State.PcOk (transact x s) := by
  refine transact_everyNext h (fun _ => pcOk_resetWith s.params) (fun rom _ => ?_) (cycleKeepsPcBounded s · h)
    (fun _ _ => h) h
  simpa only [State.PcOk, State.closeLoad_pc, State.closeLoad_stack, State.pokes_pc, State.pokes_stack] using h

/-! ### The one load (R257) -/

/-- A load and a cycle that answered a state close the load, whatever they changed. -/
theorem transact_closes_load (hx : x = .cycle ∨ ∃ rom, x = .loadRom rom) :
    EveryNext (fun t => t.loadOpen = false) (transact x s) := by
  intro t h
  obtain rfl | ⟨rom, rfl⟩ := hx
  · obtain ⟨u, -, rfl⟩ := State.hostCycle_next h
    rfl
  · obtain ⟨-, rfl⟩ := State.loadRom_next h
    rfl

/-- Only RESET opens the load again. -/
theorem transact_keeps_load_closed (hx : x ≠ .reset) (h : s.loadOpen = false) :
    EveryNext (fun t => t.loadOpen = false) (transact x s) :=
  transact_everyNext h (absurd · hx) (fun _ _ => rfl) (fun _ _ => rfl) (fun _ _ => h) h

theorem transactAll_keeps_load_closed {xs : List Transaction} (hxs : Transaction.reset ∉ xs) (h : s.loadOpen = false) :
    EveryNext (fun t => t.loadOpen = false) (transactAll xs s) :=
  transactAll_everyNext (fun _ hx _ => transact_keeps_load_closed fun he => hxs (he ▸ hx)) h

/-! ### The three answers of LOAD_ROM -/

theorem State.loadRom_too_large (hlen : rom.length > maxRom) : s.loadRom rom = .refused .romTooLarge := if_pos hlen

theorem State.loadRom_at_reset (hlen : rom.length ≤ maxRom) (hs : s = s.afterReset) :
    s.loadRom rom = .next (s.pokes romBase rom).closeLoad := (if_neg hlen.not_gt).trans (if_pos hs)

theorem State.loadRom_not_at_reset (hlen : rom.length ≤ maxRom) (hs : s ≠ s.afterReset) :
    s.loadRom rom = .refused .loadRomNotAtReset := (if_neg hlen.not_gt).trans (if_neg hs)

/-! ### The reads -/

theorem State.length_readFb (s : State) : s.readFb.length = 2048 := by
  rw [State.readFb, List.length_map, List.length_range]

theorem State.getElem_readFb (s : State) (c : Nat) (h : c < s.readFb.length) :
    s.readFb[c] = if s.cell c = true then 0xFFFFFFFF else 0x00000000 := by
  simp only [State.readFb, List.getElem_map, List.getElem_range]

end

/-- Settles O38: every handler wrote only fields of its column, which names no `status`, or raised a code of its row at pc. -/
theorem handlersRaiseOnlyTheirFaults : Obligations.HandlersRaiseOnlyTheirFaults := by
  intro i s hs
  obtain ⟨t, ht, hends⟩ := exec_ends s i
  refine ⟨t, ht, ?_, fetchOutOfRange_not_mem_faults i⟩
  obtain hframe | ⟨c, hc, rfl⟩ := hends
  · exact .inl ((hframe .status (status_not_mem_writes i)).trans hs)
  · exact .inr ⟨c, hc, rfl⟩

/-- Settles O49: RESET meets both invariants, CYCLE keeps them as a step does, a ROM that fits is a block write inside memory, and
no other transaction writes memory, pc or stack. -/
theorem transactionsKeepInvariants : Obligations.TransactionsKeepInvariants := fun x _ t hmem hpc h =>
  ⟨transact_memOk hmem x t h, transact_pcOk hpc x t h⟩

/-- Settles O56: at reset memory is canonical, so the block written at 0x200 is read back; and once a load or a cycle has closed the
load, no transaction but RESET opens it, so that the state is never again the reset state. -/
theorem loadRomPlacesBytes : Obligations.LoadRomPlacesBytes := by
  intro s rom
  refine ⟨fun hlen hs => ?fits, State.loadRom_too_large, State.loadRom_not_at_reset,
    fun x t hx ht xs u hxs hu hlen => ?once⟩
  case fits =>
    have hmem : s.MemOk := by rw [hs]; exact memOk_afterReset s
    exact ⟨_, State.loadRom_at_reset hlen hs, (frame_pokes s romBase rom).comp (frame_closeLoad _),
      State.peek_pokes_inside hmem (.inr (romBase_add_le_memSize hlen)), fun b => State.peek_pokes_outside⟩
  case once =>
    have hclosed : u.loadOpen = false := transactAll_keeps_load_closed hxs (transact_closes_load hx t ht) u hu
    exact State.loadRom_not_at_reset hlen (State.ne_afterReset hclosed)

/-- Settles O57: one key of the keypad is set. -/
theorem setKeyWritesOneKey : Obligations.SetKeyWritesOneKey := by
  refine fun s k down => ⟨s.setKey k down, rfl, frame_setKey s k down, fun j => ?_⟩
  simp only [State.setKey_key, Fin.getElem_fin, Vector.getElem_set, eq_comm]

/-- Settles O58: both timers are decremented toward 0. -/
theorem tickDecrementsTimers : Obligations.TickDecrementsTimers := fun s =>
  ⟨s.tick, rfl, frame_tick s, toNat_tickTimer s.DT, toNat_tickTimer s.ST⟩

/-- Settles O59: READ_FB lists the cells in order, the sound is what ST says, and each of the three answers the state it read. -/
theorem readsReportAndChangeNothing : Obligations.ReadsReportAndChangeNothing := by
  refine fun s => ⟨s.length_readFb, s.getElem_readFb, rfl, ?sound, rfl, fun x hx => ?unchanged⟩
  case sound => rw [State.soundOn_eq, decide_eq_true_iff]
  case unchanged =>
    simp only [List.mem_cons, List.not_mem_nil, or_false] at hx
    obtain rfl | rfl | rfl := hx <;> rfl

end Sys2Proof.Machine
end

section
/-! PROOFS. RESET (70_reset_and_hazards.md R270), and the canonical form of memory as an invariant of every step (20_memory.md section 3,
10_state.md section 9). -/

namespace Sys2Proof.Machine

/-- RESET's state and the reset state differ in the count of free values alone (10_state.md R42). -/
theorem frame_afterReset (s : State) : Frame [.draws] (State.resetWith s.params) s.afterReset := fun f hf => by
  cases f with
  | draws => exact absurd (List.mem_singleton_self _) hf
  | mem | V | fb => exact fun _ => rfl
  | _ => rfl

/-- Settles O55: RESET asks for no field but the parameters and the count of free values, and writes every other from the reset state. -/
theorem resetTransactionRestores : Obligations.ResetTransactionRestores := fun s =>
  ⟨s.afterReset, rfl, rfl, rfl, (frame_afterReset s).mono fun _ => List.mem_cons_of_mem _⟩

/-- Settles O47: a faulting fetch writes no memory, of the handlers only the two stores do, each a block inside memory, and the write of
`opcode` leaves memory alone. -/
theorem cycleKeepsMemoryCanonical : Obligations.CycleKeepsMemoryCanonical := fun _ t hmem h => step_memOk hmem t h

end Sys2Proof.Machine
end
